-- ==== Sys2Proof/Word.lean ====
section
/-! DEFINITION. The word types of the block: 64-bit registers, 8-bit character codes, the 128-bit packed register. -/

namespace Sys2Proof

/-- The content of a 64-bit register of the window (10_state.md R13). -/
abbrev Word := BitVec 64

/-- An 8-bit character code, the content of one `TEXT` entry (10_state.md R23). -/
abbrev Byte := BitVec 8

/-- The content of the 128-bit register `PACKED` (10_state.md R16). -/
abbrev PackedWord := BitVec 128

/-- The 32-bit CRC register inside one checksum computation (41_checksum_unit.md R78). -/
abbrev CrcWord := BitVec 32

end Sys2Proof
end

