-- ==== Sys2Proof/Syntax.lean ====
section
/-! DEFINITION. The seven commands of the opcode map (30_encoding.md R52), one constructor per row. -/

namespace Sys2Proof

/-- A command. No command has an encoded operand (30_encoding.md R50, R53): every operand is a register. -/
inductive Instr where
  /-- PACK (40_field_packer.md R68). -/
  | pack
  /-- UNPACK (40_field_packer.md R72). -/
  | unpack
  /-- CRC (41_checksum_unit.md R82). -/
  | crc
  /-- TENC (42_text_transform.md R93). -/
  | tenc
  /-- TDEC (42_text_transform.md R102). -/
  | tdec
  /-- ENCKEY (43_key_commands.md R105). -/
  | enckey
  /-- DECKEY (43_key_commands.md R106). -/
  | deckey
  deriving DecidableEq, Repr

end Sys2Proof
end

