-- ==== Sys2Proof/Decode.lean ====
section
/-! DEFINITION. The command word (30_encoding.md R50 to R54): its fields, the decoder, total on all 64-bit words, and
the encoder. -/

namespace Sys2Proof

/-- Why a word is no command (30_encoding.md R54). -/
inductive DecodeError where
  /-- A bit of `w[63:8]` is set. -/
  | zeroFieldSet
  /-- `OPC` is 0x00 or in 0x08 to 0xFF. -/
  | unknownOpcode (opc : Byte)
  deriving DecidableEq, Repr

/-- `OPC`, bits 7:0 (R50). -/
def opcField (w : Word) : Byte := w.extractLsb' 0 8

/-- `ZERO`, bits 63:8 (R50). -/
def zeroField (w : Word) : BitVec 56 := w.extractLsb' 8 56

/-- Decode of the value written to `CMD` (R51, R52). It reads no state. -/
def decode (w : Word) : Except DecodeError Instr :=
  if zeroField w ≠ 0#56 then .error .zeroFieldSet
  else
    match (opcField w).toNat with
    | 0x01 => .ok .pack
    | 0x02 => .ok .unpack
    | 0x03 => .ok .crc
    | 0x04 => .ok .tenc
    | 0x05 => .ok .tdec
    | 0x06 => .ok .enckey
    | 0x07 => .ok .deckey
    | _ => .error (.unknownOpcode (opcField w))

/-- The word of each command (R52). -/
def encode : Instr → Word
  | .pack => 0x0000000000000001#64
  | .unpack => 0x0000000000000002#64
  | .crc => 0x0000000000000003#64
  | .tenc => 0x0000000000000004#64
  | .tdec => 0x0000000000000005#64
  | .enckey => 0x0000000000000006#64
  | .deckey => 0x0000000000000007#64

/-- The instruction the decoder reads from a table word: the command word is one 64-bit value, its bit 0 the table's
bit 0, the bits above `nbits` zero. A value that does not fit the 64 bits of a `CMD` write is no command. -/
def decodeTableWord (nbits w : Nat) : Option Instr :=
  if w % 2 ^ nbits < 2 ^ 64 then
    match decode (BitVec.ofNat 64 (w % 2 ^ nbits)) with
    | .ok i => some i
    | .error _ => none
  else none

end Sys2Proof
end

