-- ==== Sys2Proof/Machine/Interface.lean ====
section
/-! DEFINITION. The names the window, the errors and the host interface are spoken of in: fields, registers, ports,
accesses, host events, read values and error kinds. -/

namespace Sys2Proof.Machine

/-- The six fields of the packed integer, in the table order of 10_state.md R15. -/
inductive Field where
  | group | serial | security | checksum | upgrade | extra
  deriving DecidableEq, Repr

/-- The 64-bit registers of the window in the order of their offsets (20_memory.md R35). -/
inductive Reg where
  /-- One of the six field registers `GROUP` to `EXTRA`. -/
  | field (f : Field)
  /-- `PACKED[63:0]` (R37). -/
  | packedLo
  /-- `PACKED[127:64]` (R37). -/
  | packedHi
  | csused | crcout | status | cmd | textlen
  deriving DecidableEq, Repr

/-- What one admitted access names: a 64-bit register or one `TEXT` entry (20_memory.md R36). -/
inductive Port where
  | reg (r : Reg)
  | text (i : Fin 32)
  deriving DecidableEq, Repr

/-- A host access (20_memory.md R36, 30_encoding.md R57): offset, size in bytes, and for a write `n` bytes of data. -/
inductive Access where
  /-- `MemWrite(off, n, v)`. -/
  | write (off n : Nat) (v : BitVec (8 * n))
  /-- `MemRead(off, n)`. -/
  | load (off n : Nat)
  deriving DecidableEq, Repr

/-- What the outside world can do to the block. -/
inductive HostEvent where
  /-- An access by the one host (20_memory.md R44). -/
  | access (a : Access)
  /-- A reset, which takes effect between accesses (70_reset_and_hazards.md R126). -/
  | reset
  /-- An access by a second host on this instance, which a model refuses (20_memory.md R47). -/
  | otherHost (a : Access)
  deriving DecidableEq, Repr

/-- What a read returns: a whole 64-bit register or one `TEXT` entry (20_memory.md R36). -/
inductive ReadValue where
  | word (v : Word)
  | byte (c : Byte)
  deriving DecidableEq, Repr

/-- The errors of the block and what each carries (60_exceptions.md R109). They are reported in `STATUS` and stop nothing. -/
inductive CodecError where
  | outOfBounds (f : Field)
  | unencodable
  | invalidCharacter (c : Byte)
  | malformedLength
  | illegalCommand
  deriving DecidableEq, Repr

/-- The field set, six unsigned integers of unbounded size (00_scope.md R8, 40_field_packer.md R61). -/
structure FieldSet where
  group : Nat
  serial : Nat
  security : Nat
  checksum : Nat
  upgrade : Nat
  extra : Nat
  deriving DecidableEq, Repr

/-- A host statement (30_encoding.md R58): `WR`, `WRB`, `RD`, `RDB`, or a command's mnemonic with its word. -/
inductive Stmt where
  | wr (r : Reg) (v : Word)
  | wrb (i : Fin 32) (c : Byte)
  | rd (r : Reg)
  | rdb (i : Fin 32)
  | issue (w : Word)
  deriving DecidableEq, Repr

/-- A line of a host program (30_encoding.md R58, R59): a statement or one of the pseudo-instructions. -/
inductive Pseudo where
  | stmt (x : Stmt)
  /-- `WRP value128`. -/
  | wrp (v : PackedWord)
  /-- `WRFIELDS g, s, sec, ck, u, x`. -/
  | wrfields (g s sec ck u x : Word)
  /-- `WRTEXT "string"`. -/
  | wrtext (t : String)
  /-- `RDP`. -/
  | rdp
  /-- `RDTEXT`, with the value its `RD TEXTLEN` returns, on which the rest of its expansion depends. -/
  | rdtext (textlen : Word)
  /-- `EXPECT reg == value`, an assertion and not an access. -/
  | expect (r : Reg) (v : Word)
  deriving DecidableEq, Repr

end Sys2Proof.Machine
end

