-- ==== Sys2Proof/Machine/Flags.lean ====
section
/-! DEFINITION. The STATUS word (10_state.md R20): its fields, and the word each error writes (60_exceptions.md R109 to
R115). The block has no other flag. -/

namespace Sys2Proof.Machine

/-- The field index of 10_state.md R15, used in error reports (R14). -/
def Field.index : Field → Nat
  | .group => 0
  | .serial => 1
  | .security => 2
  | .checksum => 3
  | .upgrade => 4
  | .extra => 5

/-- `ERR`, the numeric code of an error (R109). -/
def CodecError.code : CodecError → Nat
  | .outOfBounds _ => 1
  | .unencodable => 2
  | .invalidCharacter _ => 3
  | .malformedLength => 4
  | .illegalCommand => 5

/-- `INFO`, what an error carries: the field index, the character's code, or 0 (R109). -/
def CodecError.info : CodecError → Nat
  | .outOfBounds f => f.index
  | .invalidCharacter c => c.toNat
  | .unencodable => 0
  | .malformedLength => 0
  | .illegalCommand => 0

/-- The word an error writes: `code(E) | (info << 8)` (R113). -/
def CodecError.statusWord (e : CodecError) : Word := BitVec.ofNat 64 (e.code ||| (e.info <<< 8))

/-- The word a success writes (R20). -/
def statusOk : Word := 0#64

/-- `ERR`, bits 2:0 of STATUS (R20). -/
def statusErr (w : Word) : BitVec 3 := w.extractLsb' 0 3

/-- `INFO`, bits 15:8 of STATUS (R20). -/
def statusInfo (w : Word) : Byte := w.extractLsb' 8 8

end Sys2Proof.Machine
end

