-- ==== Sys2Proof/Config.lean ====
section
/-! DEFINITION. The constants the document fixes (00_scope.md R6) and the parameters it leaves open (R7). -/

namespace Sys2Proof.Config

/-- `CK_AUTO`, the "auto-compute" sentinel of the checksum input (R6). -/
def ckAuto : Nat := 1024

/-- `LIMIT`, the largest encodable packed integer, inclusive: 0x62A32B15518 << 72 (R6, 90_conflicts.md C6). -/
def limit : Nat := 0x62A32B15518 <<< 72

/-- `CRC_POLY` (R6). -/
def crcPoly : CrcWord := 0x04C11DB7#32

/-- `CRC_INIT` (R6). -/
def crcInit : CrcWord := 0xFFFFFFFF#32

/-- `CRC_BYTES`, the length of the checksummed byte string (R6). -/
def crcBytes : Nat := 16

/-- `RADIX`, the text radix (R6). -/
def radix : Nat := 24

/-- The digits rendered through the alphabet, one fewer than `NDIG` = 25 (R6, 42_text_transform.md R88). -/
def bodyLen : Nat := 24

/-- `CONTENT_LEN`, the content characters of a text key (R6). -/
def contentLen : Nat := 25

/-- `KEY_LEN`, 25 content characters and 4 dashes (R6, 90_conflicts.md C1). -/
def keyLen : Nat := 29

/-- `TEXT_CAP`, the size of the text buffer (R7). -/
def textCap : Nat := 32

/-- `MARKER`, the character 'N' (R6); its code is R7's. PRESUMED (log 2), unsafe. -/
def marker : Byte := 0x4E#8

/-- `DASH` (R7). PRESUMED (log 2), unsafe. -/
def dash : Byte := 0x2D#8

/-- `ALPHABET`: the value the machine is instantiated with, the default of 00_scope.md R7 and 42_text_transform.md R86
(BCDFGHJKMPQRTVWXY2346789 in ASCII). Every text function takes the alphabet as an argument; only `exec` and what it
calls directly uses this one. PRESUMED (log 1), unsafe: the spec has it from general knowledge. -/
def alphabet : List Byte :=
  [0x42#8, 0x43#8, 0x44#8, 0x46#8, 0x47#8, 0x48#8, 0x4A#8, 0x4B#8] ++
  [0x4D#8, 0x50#8, 0x51#8, 0x52#8, 0x54#8, 0x56#8, 0x57#8, 0x58#8] ++
  [0x59#8, 0x32#8, 0x33#8, 0x34#8, 0x36#8, 0x37#8, 0x38#8, 0x39#8]

end Sys2Proof.Config
end

