-- ==== Sys2Proof/Machine/State.lean ====
section
/-! DEFINITION. The machine's state: the registers of 10_state.md R13 and the host's two lists; the reasons a step can
stop; the state after reset. -/

namespace Sys2Proof.Machine

/-- The registers of 10_state.md R13, all of them and no other, then the two lists of the host (the model's own). -/
structure State where
  /-- `GROUP` (R14). -/
  group : Word
  /-- `SERIAL` (R14). -/
  serial : Word
  /-- `SECURITY` (R14). -/
  security : Word
  /-- `CHECKSUM` (R14). -/
  checksum : Word
  /-- `UPGRADE` (R14). -/
  upgrade : Word
  /-- `EXTRA` (R14). -/
  extra : Word
  /-- `PACKED` (R16). -/
  packed : PackedWord
  /-- `CSUSED` (R18). -/
  csused : Word
  /-- `CRCOUT` (R19). -/
  crcout : Word
  /-- `STATUS` (R20). -/
  status : Word
  /-- `TEXTLEN` (R22). -/
  textlen : Word
  /-- `TEXT[0..31]` (R23). -/
  text : Vector Byte 32
  /-- The host's remaining accesses, oldest first (30_encoding.md R57). The model's own: DESIGN CHOICE (log 3), safe. -/
  pending : List HostEvent
  /-- The values the host's reads have returned, oldest first (R57). The model's own: DESIGN CHOICE (log 4), safe. -/
  observed : List ReadValue
  deriving DecidableEq, Repr

/-- Reasons to stop with a fault. There are none: the block's errors are values of `STATUS` and "do not stop the block"
(00_scope.md R11, 60_exceptions.md R113). DEDUCED (log 11), unsafe. -/
inductive Fault where
  deriving DecidableEq, Repr

/-- Reasons to give no meaning. -/
inductive Refusal where
  /-- Raised by `exec` alone, for a command without a meaning; no arm of this model raises it. Safe. -/
  | notModelled (mnemonic : String)
  /-- Raised by a host access that 20_memory.md R36 does not admit (R41), with its offset and size. Safe. -/
  | unadmittedAccess (off n : Nat)
  /-- Raised by an access of a second host (20_memory.md R47). Safe. -/
  | secondHost
  deriving DecidableEq, Repr

/-- What a step, a command or an access answers. -/
abbrev Result := Host.Outcome State Fault Refusal

/-- The next state of a result, where it has one. -/
def nextState? : Result → Option State
  | .next s => some s
  | .fault _ => none
  | .refused _ => none

/-- The refusal of a result, where it is one. -/
def refusal? : Result → Option Refusal
  | .next _ => none
  | .fault _ => none
  | .refused r => some r

/-- The machine right after reset: every register zero (10_state.md R30). The two host lists are empty: DESIGN CHOICE
(log 3, log 4). -/
def State.reset : State where
  group := 0
  serial := 0
  security := 0
  checksum := 0
  upgrade := 0
  extra := 0
  packed := 0
  csused := 0
  crcout := 0
  status := 0
  textlen := 0
  text := Vector.replicate 32 0
  pending := []
  observed := []

end Sys2Proof.Machine
end

