-- ==== Sys2Proof/Machine/Ops.lean ====
section
/-! DEFINITION. The named operations over the registers: the updates, raising an error (the block's one kind of
exception), ending a command, the register window and its byte order, reset. -/

namespace Sys2Proof.Machine

/-! ## Register updates -/

/-- `PACKED <- v`. -/
def State.setPacked (v : PackedWord) (s : State) : State := { s with packed := v }

/-- `CSUSED <- v`. -/
def State.setCsused (v : Word) (s : State) : State := { s with csused := v }

/-- `CRCOUT <- v`. -/
def State.setCrcout (v : Word) (s : State) : State := { s with crcout := v }

/-- `STATUS <- v`. -/
def State.setStatus (v : Word) (s : State) : State := { s with status := v }

/-- `TEXTLEN <- v`. -/
def State.setTextlen (v : Word) (s : State) : State := { s with textlen := v }

/-- `TEXT[0..31] <- t`. -/
def State.setText (t : Vector Byte 32) (s : State) : State := { s with text := t }

/-- `TEXT[i] <- c`. -/
def State.setTextByte (i : Fin 32) (c : Byte) (s : State) : State := { s with text := s.text.set i c }

/-- The host takes its next events from `es`. -/
def State.setPending (es : List HostEvent) (s : State) : State := { s with pending := es }

/-- A read returned `v` (30_encoding.md R57). -/
def State.observe (v : ReadValue) (s : State) : State := { s with observed := s.observed ++ [v] }

/-- A field register's value (10_state.md R14). -/
def State.fieldReg (s : State) : Field → Word
  | .group => s.group
  | .serial => s.serial
  | .security => s.security
  | .checksum => s.checksum
  | .upgrade => s.upgrade
  | .extra => s.extra

/-- A write to a field register stores all 64 bits unchanged (10_state.md R14). -/
def State.setFieldReg (f : Field) (v : Word) (s : State) : State :=
  match f with
  | .group => { s with group := v }
  | .serial => { s with serial := v }
  | .security => { s with security := v }
  | .checksum => { s with checksum := v }
  | .upgrade => { s with upgrade := v }
  | .extra => { s with extra := v }

/-! ## Errors -/

/-- `raise E(info)` (60_exceptions.md R113): STATUS is written and nothing else; the command ends. There is no return
from it (R117). -/
def State.raise (e : CodecError) (s : State) : State := s.setStatus e.statusWord

/-- How every command ends (60_exceptions.md R113, R119): with an error, the state before it with STATUS replaced; else all its
writes and STATUS 0. -/
def finish (s : State) : Except CodecError State → Result
  | .error e => .next (s.raise e)
  | .ok t => .next (t.setStatus statusOk)

/-! ## The register window (20_memory.md) -/

/-- The offset of a field register: the table order, eight bytes each (R35). -/
def Field.windowOffset (f : Field) : Nat := 8 * f.index

/-- The offset of a 64-bit register (R35). -/
def Reg.offset : Reg → Nat
  | .field f => f.windowOffset
  | .packedLo => 0x30
  | .packedHi => 0x38
  | .csused => 0x40
  | .crcout => 0x48
  | .status => 0x50
  | .cmd => 0x58
  | .textlen => 0x60

/-- The register at an offset, where one starts there (R35). -/
def regAt : Nat → Option Reg
  | 0x00 => some (.field .group)
  | 0x08 => some (.field .serial)
  | 0x10 => some (.field .security)
  | 0x18 => some (.field .checksum)
  | 0x20 => some (.field .upgrade)
  | 0x28 => some (.field .extra)
  | 0x30 => some .packedLo
  | 0x38 => some .packedHi
  | 0x40 => some .csused
  | 0x48 => some .crcout
  | 0x50 => some .status
  | 0x58 => some .cmd
  | 0x60 => some .textlen
  | _ => none

/-- The `TEXT` entry at an offset (R35). -/
def textAt (off : Nat) : Option (Fin 32) :=
  if h : 0x80 ≤ off ∧ off < 0xA0 then some ⟨off - 0x80, by omega⟩ else none

/-- What an access of `n` bytes at `off` names: none where it is not admitted (R36, R41). -/
def portAt (off n : Nat) : Option Port :=
  match n with
  | 8 => (regAt off).map .reg
  | 1 => (textAt off).map .text
  | _ => none

/-- `PACKED[63:0]` (R37). -/
def State.packedLo (s : State) : Word := s.packed.extractLsb' 0 64

/-- `PACKED[127:64]` (R37). -/
def State.packedHi (s : State) : Word := s.packed.extractLsb' 64 64

/-- The value a read of a 64-bit register returns (R40); `CMD` reads 0 (10_state.md R21). -/
def State.loadReg (s : State) : Reg → Word
  | .field f => s.fieldReg f
  | .packedLo => s.packedLo
  | .packedHi => s.packedHi
  | .csused => s.csused
  | .crcout => s.crcout
  | .status => s.status
  | .cmd => 0#64
  | .textlen => s.textlen

/-- What a write of a 64-bit register stores (R40): a read-write register stores, a half of `PACKED` keeps the other half
(R37), a read-only register ignores the write, and `CMD` holds nothing (10_state.md R21). -/
def State.storeReg (r : Reg) (v : Word) (s : State) : State :=
  match r with
  | .field f => s.setFieldReg f v
  | .packedLo => s.setPacked (s.packedHi ++ v)
  | .packedHi => s.setPacked (v ++ s.packedLo)
  | .csused => s
  | .crcout => s
  | .status => s
  | .cmd => s
  | .textlen => s.setTextlen v

/-- The value a read of a port returns (R36, R40). -/
def State.loadPort (s : State) : Port → ReadValue
  | .reg r => .word (s.loadReg r)
  | .text i => .byte s.text[i]

/-- Byte `j` of a 64-bit register in the window's byte order, bits 8j+7:8j (R39). -/
def wordByte (v : Word) (j : Nat) : Byte := v.extractLsb' (8 * j) 8

/-- The byte image of the window (R38, R39): what a platform that maps it byte by byte sees at `off`. A reserved offset
has none. -/
def State.windowByte (s : State) (off : Nat) : Option Byte :=
  match textAt off with
  | some i => some s.text[i]
  | none => (regAt (off / 8 * 8)).map fun r => wordByte (s.loadReg r) (off % 8)

/-- `LE16(v)` (00_scope.md R9, R38): byte 0 is bits 7:0 and comes first. -/
def le16 (v : PackedWord) : List Byte :=
  (List.range Config.crcBytes).map fun i => v.extractLsb' (8 * i) 8

/-! ## Reset -/

/-- Reset (70_reset_and_hazards.md R126): every register at its value of 10_state.md R30. The host's lists are no register
and stay: DESIGN CHOICE (log 8), safe. -/
def State.resetBlock (s : State) : State :=
  { State.reset with pending := s.pending, observed := s.observed }

end Sys2Proof.Machine
end

