-- ==== Sys2Proof/Machine/Operands.lean ====
section
/-! DEFINITION. The operand forms of the commands (10_state.md R28): the field set in and out of the six registers, the
packed integer, the input text and the output text. -/

namespace Sys2Proof.Machine

/-- The six field registers read as unsigned integers (40_field_packer.md R68, 30_encoding.md R53). -/
def State.fieldSet (s : State) : FieldSet where
  group := s.group.toNat
  serial := s.serial.toNat
  security := s.security.toNat
  checksum := s.checksum.toNat
  upgrade := s.upgrade.toNat
  extra := s.extra.toNat

/-- The six field registers written with the zero-extended fields (40_field_packer.md R72). -/
def State.setFieldSet (f : FieldSet) (s : State) : State :=
  { s with
    group := BitVec.ofNat 64 f.group
    serial := BitVec.ofNat 64 f.serial
    security := BitVec.ofNat 64 f.security
    checksum := BitVec.ofNat 64 f.checksum
    upgrade := BitVec.ofNat 64 f.upgrade
    extra := BitVec.ofNat 64 f.extra }

/-- `PACKED` read as an unsigned integer, all 128 bits (10_state.md R16). -/
def State.packedNat (s : State) : Nat := s.packed.toNat

/-- `PACKED <- zext_128(n)`. -/
def State.setPackedNat (n : Nat) (s : State) : State := s.setPacked (BitVec.ofNat 128 n)

/-- `PACKED <- zext_128(packed)` and `CSUSED <- zext_64(used)` (40_field_packer.md R68). -/
def State.setPackResult (r : Nat × Nat) (s : State) : State :=
  (s.setPackedNat r.1).setCsused (BitVec.ofNat 64 r.2)

/-- The input text `TEXT[0..TEXTLEN-1]`; a `TEXTLEN` over 32 is itself `MalformedLength` (42_text_transform.md R96,
R102). -/
def State.inputText (s : State) : Except CodecError (List Byte) :=
  if s.textlen.toNat > Config.textCap then .error .malformedLength
  else .ok (s.text.toList.take s.textlen.toNat)

/-- A key laid into the 32-byte buffer: its characters, then 0x00 (42_text_transform.md R93). -/
def padText (t : List Byte) : Vector Byte 32 := Vector.ofFn fun k => t.getD k.val 0#8

/-- The output text: the key into `TEXT`, the rest zero, `TEXTLEN <- 29` (42_text_transform.md R93). -/
def State.setKeyText (t : List Byte) (s : State) : State :=
  (s.setText (padText t)).setTextlen (BitVec.ofNat 64 Config.keyLen)

end Sys2Proof.Machine
end

