-- ==== Sys2Proof/Machine/Checksum.lean ====
section
/-! DEFINITION. The Checksum Unit (41_checksum_unit.md): the CRC of 16 bytes and the command CRC. -/

namespace Sys2Proof.Machine

/-- One bit of R78's loop: shift left, the bit shifted out selects the XOR of the polynomial. -/
def crcBit (reg : CrcWord) : CrcWord :=
  if reg.msb then (reg <<< 1) ^^^ Config.crcPoly else reg <<< 1

/-- `k` bits of R78's loop. -/
def crcBits : Nat → CrcWord → CrcWord
  | 0, reg => reg
  | k + 1, reg => crcBits k (crcBit reg)

/-- `CrcByte(reg, b)` (R78). -/
def crcByte (reg : CrcWord) (b : Byte) : CrcWord :=
  crcBits 8 (reg ^^^ (b.setWidth 32 <<< 24))

/-- `CrcReg(v)`: the 16 bytes of `LE16(v)` in order (R79, R76). -/
def crcReg (v : PackedWord) : CrcWord := (le16 v).foldl crcByte Config.crcInit

/-- `Crc10(v)`: the complement of the register, low 10 bits (R80). -/
def crc10 (v : PackedWord) : BitVec 10 := ((~~~ crcReg v) &&& 0x3FF#32).setWidth 10

/-- The table of R83: `T[i] = CrcByte(0, i)`. A constant of the block, not state (R84). -/
def crcTable (i : Byte) : CrcWord := crcByte 0#32 i

/-- The table form of the byte step (R83): `trunc_32(reg << 8) ^ T[reg[31:24] ^ b]`. -/
def crcByteByTable (reg : CrcWord) (b : Byte) : CrcWord :=
  (reg <<< 8) ^^^ crcTable (reg.extractLsb' 24 8 ^^^ b)

/-- CRC (R82). It never fails, and takes the 16 bytes of `PACKED` exactly as they are. -/
def execCrc (s : State) : Result :=
  finish s (.ok (s.setCrcout ((crc10 s.packed).setWidth 64)))

end Sys2Proof.Machine
end

