-- ==== Sys2Proof/Machine/Packer.lean ====
section
/-! DEFINITION. The Field Packer (40_field_packer.md): Pack and Unpack on numbers, the commands PACK and UNPACK. -/

namespace Sys2Proof.Machine

/-- The bit offset of a field in the packed integer (10_state.md R15). -/
def Field.bitOffset : Field → Nat
  | .group => 0
  | .serial => 20
  | .security => 50
  | .checksum => 103
  | .upgrade => 113
  | .extra => 114

/-- The width of a field in the packed integer (10_state.md R15). -/
def Field.width : Field → Nat
  | .group => 20
  | .serial => 30
  | .security => 53
  | .checksum => 10
  | .upgrade => 1
  | .extra => 1

/-- The largest value of a field (10_state.md R15). -/
def Field.maxValue (f : Field) : Nat := 2 ^ f.width - 1

/-- The mask of a field at its offset (10_state.md R15). -/
def Field.mask (f : Field) : Nat := f.maxValue <<< f.bitOffset

/-- `CheckBounds`: the first field out of bounds, if any (R62). The checksum's bounds are 1 to 1024 (R63). -/
def firstOutOfBounds (f : FieldSet) : Option Field :=
  if f.group > 0xFFFFF then some .group
  else if f.serial > 0x3FFFFFFF then some .serial
  else if f.security > 0x1FFFFFFFFFFFFF then some .security
  else if f.checksum = 0 ∨ f.checksum > 1024 then some .checksum
  else if f.upgrade > 1 then some .upgrade
  else if f.extra > 1 then some .extra
  else none

/-- `Partial`: five fields at their offsets, the checksum bits zero (R65). -/
def partialPack (f : FieldSet) : Nat :=
  f.group ||| (f.serial <<< 20) ||| (f.security <<< 50) ||| (f.upgrade <<< 113) ||| (f.extra <<< 114)

/-- The checksum used: the computed one for the sentinel 1024, else the one supplied (R64). -/
def checksumUsed (f : FieldSet) : Nat :=
  if f.checksum = Config.ckAuto then (crc10 (BitVec.ofNat 128 (partialPack f))).toNat else f.checksum

/-- The packed integer with the checksum ORed in (R66). -/
def finalPack (f : FieldSet) : Nat := partialPack f ||| (checksumUsed f <<< 103)

/-- `Pack`: the packed integer and the checksum actually used, or the error (R61, R67). -/
def packFields (f : FieldSet) : Except CodecError (Nat × Nat) :=
  match firstOutOfBounds f with
  | some g => .error (.outOfBounds g)
  | none =>
    if f.extra ≠ 0 ∧ finalPack f > Config.limit then .error .unencodable
    else .ok (finalPack f, checksumUsed f)

/-- `Unpack`: mask and shift, nothing checked (R70, R71). -/
def unpackFields (n : Nat) : FieldSet where
  group := (n >>> 0) &&& 0xFFFFF
  serial := (n >>> 20) &&& 0x3FFFFFFF
  security := (n >>> 50) &&& 0x1FFFFFFFFFFFFF
  checksum := (n >>> 103) &&& 0x3FF
  upgrade := (n >>> 113) &&& 1
  extra := (n >>> 114) &&& 1

/-- PACK (R68). -/
def execPack (s : State) : Result :=
  finish s ((packFields s.fieldSet).map fun r => s.setPackResult r)

/-- UNPACK (R72). It never fails. -/
def execUnpack (s : State) : Result :=
  finish s (.ok (s.setFieldSet (unpackFields s.packedNat)))

end Sys2Proof.Machine
end

