-- ==== Sys2Proof/Machine/TextTransform.lean ====
section
/-! DEFINITION. The Text Transform (42_text_transform.md): Encode and Decode on numbers and character lists, for an
arbitrary alphabet, and the commands TENC and TDEC. -/

namespace Sys2Proof.Machine

/-! ## Encode -/

/-- `Sym(i)` for `i` in 0..23 (R86). The value past the alphabet's end is never used: every rendered digit is below 24
(R88). DESIGN CHOICE (log 13), safe. -/
def symbolAt (a : List Byte) (i : Nat) : Byte := a.getD i 0#8

/-- The loop of R88: `k` digits, least significant first, then what is left, not reduced modulo 24. -/
def expandDigits : Nat → Nat → List Nat
  | 0, n => [n]
  | k + 1, n => n % Config.radix :: expandDigits k (n / Config.radix)

/-- `Digits(n)` = d0 to d24 (R88). -/
def digits (n : Nat) : List Nat := expandDigits Config.bodyLen n

/-- The 24-character body: d23 down to d0 through the alphabet (R89). -/
def renderBody (a : List Byte) (d : List Nat) : List Byte :=
  ((d.take Config.bodyLen).reverse).map (symbolAt a)

/-- The top digit d24, the marker's position (R88, R90). -/
def topDigit (d : List Nat) : Nat := d.getD Config.bodyLen 0

/-- Marker insertion at position `p` (R90). -/
def insertMarker (p : Nat) (body : List Byte) : List Byte :=
  body.take p ++ [Config.marker] ++ body.drop p

/-- `Dashed(content)`: a dash after content characters 5, 10, 15 and 20 (R91). -/
def dashed (content : List Byte) : List Byte :=
  content.take 5 ++ [Config.dash] ++ (content.drop 5).take 5 ++ [Config.dash] ++ (content.drop 10).take 5 ++
    [Config.dash] ++ (content.drop 15).take 5 ++ [Config.dash] ++ (content.drop 20).take 5

/-- `Encode(n)` (R92); above `LIMIT` it is `Unencodable` (R87). -/
def encodeText (a : List Byte) (n : Nat) : Except CodecError (List Byte) :=
  if n > Config.limit then .error .unencodable
  else .ok (dashed (insertMarker (topDigit (digits n)) (renderBody a (digits n))))

/-! ## Decode -/

/-- `Idx(c)` (R86): the position of `c` in the alphabet, if it is there. -/
def symbolIndex (c : Byte) : List Byte → Option Nat
  | [] => none
  | x :: rest => if x = c then some 0 else (symbolIndex c rest).map (· + 1)

/-- Strip dashes: every one, wherever it stands (R95). -/
def stripDashes (t : List Byte) : List Byte := t.filter fun c => decide (c ≠ Config.dash)

/-- The indices of the characters in order, or the leftmost character that has none (R98). -/
def mapIndices (a : List Byte) : List Byte → Except CodecError (List Nat)
  | [] => .ok []
  | c :: rest =>
    match symbolIndex c a with
    | none => .error (.invalidCharacter c)
    | some v =>
      match mapIndices a rest with
      | .error e => .error e
      | .ok vs => .ok (v :: vs)

/-- Horner accumulation from the marker position on (R99). -/
def horner (p : Nat) (vs : List Nat) : Nat := vs.foldl (fun acc v => acc * Config.radix + v) p

/-- The position of the marker (R97). -/
def markerPos (t : List Byte) : Nat := t.idxOf Config.marker

/-- The characters left when the one at `p` is removed (R97). -/
def removeAt (p : Nat) (t : List Byte) : List Byte := t.take p ++ t.drop (p + 1)

/-- Decode of a text whose dashes are stripped (R96 to R99). -/
def decodeContent (a : List Byte) (t : List Byte) : Except CodecError Nat :=
  if t.length ≠ Config.contentLen ∨ t.count Config.marker ≠ 1 then .error .malformedLength
  else (mapIndices a (removeAt (markerPos t) t)).map (horner (markerPos t))

/-- `Decode(text)` (R94). -/
def decodeText (a : List Byte) (t : List Byte) : Except CodecError Nat := decodeContent a (stripDashes t)

/-! ## TENC and TDEC -/

/-- TENC for an alphabet (R93). -/
def tencWith (a : List Byte) (s : State) : Result :=
  finish s ((encodeText a s.packedNat).map fun t => s.setKeyText t)

/-- The packed integer that the input text of TDEC and DECKEY stands for, or the error (R102, 43_key_commands.md R106). -/
def State.inputKey (a : List Byte) (s : State) : Except CodecError Nat :=
  match s.inputText with
  | .error e => .error e
  | .ok t => decodeText a t

/-- TDEC for an alphabet (R102). -/
def tdecWith (a : List Byte) (s : State) : Result :=
  finish s ((s.inputKey a).map fun n => s.setPackedNat n)

/-- TENC (R93). -/
def execTenc (s : State) : Result := tencWith Config.alphabet s

/-- TDEC (R102). -/
def execTdec (s : State) : Result := tdecWith Config.alphabet s

end Sys2Proof.Machine
end

