-- ==== Sys2Proof/Machine/KeyCommands.lean ====
section
/-! DEFINITION. The two exposed compositions (43_key_commands.md): the commands ENCKEY and DECKEY. -/

namespace Sys2Proof.Machine

/-- What a successful ENCKEY leaves, but for STATUS, or the error of the step that failed (R105). -/
def enckeyResult (a : List Byte) (s : State) : Except CodecError State :=
  match packFields s.fieldSet with
  | .error e => .error e
  | .ok r => (encodeText a r.1).map fun t => (s.setPackResult r).setKeyText t

/-- ENCKEY for an alphabet (R105): all or nothing. -/
def enckeyWith (a : List Byte) (s : State) : Result := finish s (enckeyResult a s)

/-- DECKEY for an alphabet (R106): Decode, then Unpack of its result. -/
def deckeyWith (a : List Byte) (s : State) : Result :=
  finish s ((s.inputKey a).map fun n => (s.setPackedNat n).setFieldSet (unpackFields n))

/-- ENCKEY (R105). -/
def execEnckey (s : State) : Result := enckeyWith Config.alphabet s

/-- DECKEY (R106). -/
def execDeckey (s : State) : Result := deckeyWith Config.alphabet s

end Sys2Proof.Machine
end

