-- ==== Sys2Proof/Machine/Dispatch.lean ====
section
/-! DEFINITION. One arm per command of the opcode map (30_encoding.md R52), each a direct call of its meaning. -/

namespace Sys2Proof.Machine

/-- The command `i` runs to completion (20_memory.md R42). -/
def exec (i : Instr) (s : State) : Host.Outcome State Fault Refusal :=
  match i with
  | .pack => Sys2Proof.Machine.execPack s
  | .unpack => Sys2Proof.Machine.execUnpack s
  | .crc => Sys2Proof.Machine.execCrc s
  | .tenc => Sys2Proof.Machine.execTenc s
  | .tdec => Sys2Proof.Machine.execTdec s
  | .enckey => Sys2Proof.Machine.execEnckey s
  | .deckey => Sys2Proof.Machine.execDeckey s

end Sys2Proof.Machine
end

