-- ==== Sys2Proof/Machine/HostPort.lean ====
section
/-! DEFINITION. The host interface (20_memory.md R36 to R41, 30_encoding.md R51, R54): the effect of a command word, of
an access and of every other event of the outside world. -/

namespace Sys2Proof.Machine

/-- A write of `w` to `CMD` (30_encoding.md R51): the command it decodes to runs, and an illegal word raises
`IllegalCommand` (R54). -/
def issueCommand (w : Word) (s : State) : Result :=
  match decode w with
  | .ok i => exec i s
  | .error _ => .next (s.raise .illegalCommand)

/-- A write of a 64-bit register (20_memory.md R40): `CMD` starts a command, the others store or ignore. -/
def writeReg (r : Reg) (v : Word) (s : State) : Result :=
  if r = .cmd then issueCommand v s else .next (s.storeReg r v)

/-- `MemWrite(off, n, v)` (R36, R40, R41). `portAt` names a register only for 8 bytes and a `TEXT` entry only for 1, so the
change of width keeps every bit. -/
def memWrite (off n : Nat) (v : BitVec (8 * n)) (s : State) : Result :=
  match portAt off n with
  | none => .refused (.unadmittedAccess off n)
  | some (.reg r) => writeReg r (v.setWidth 64) s
  | some (.text i) => .next (s.setTextByte i (v.setWidth 8))

/-- `MemRead(off, n)` (R36, R40, R41): the value goes to the host's observation (30_encoding.md R57). -/
def memRead (off n : Nat) (s : State) : Result :=
  match portAt off n with
  | none => .refused (.unadmittedAccess off n)
  | some p => .next (s.observe (s.loadPort p))

/-- One event of the outside world. A second host is refused (R47); a reset comes between accesses (R126). -/
def serve (e : HostEvent) (s : State) : Result :=
  match e with
  | .access (.write off n v) => memWrite off n v s
  | .access (.load off n) => memRead off n s
  | .reset => .next s.resetBlock
  | .otherHost _ => .refused .secondHost

/-- The host's next event, taken off its list, has its effect. With none left the block does nothing (10_state.md R31):
DESIGN CHOICE (log 5), safe. -/
def hostStep (s : State) : Result :=
  match s.pending with
  | [] => .next s
  | e :: rest => serve e (s.setPending rest)

/-- The write of `CMD` that issues the table word `w` (30_encoding.md R50). -/
def commandWrite (nbits w : Nat) : HostEvent :=
  .access (.write 0x58 8 (BitVec.ofNat 64 (w % 2 ^ nbits)))

end Sys2Proof.Machine
end

