-- ==== Sys2Proof/Machine/Step.lean ====
section
/-! DEFINITION. One step: the host's next access (20_memory.md R44), and where a command word is placed for it. -/

namespace Sys2Proof.Machine

/-- One step is the host's next event (20_memory.md R44, 30_encoding.md R57). -/
def step (s : State) : Host.Outcome State Fault Refusal := hostStep s

/-- `s` with the write of the command word `w` to `CMD` as the host's next access (log 3). -/
def State.withFetchWord (s : State) (nbits w : Nat) : State :=
  s.setPending (commandWrite nbits w :: s.pending)

end Sys2Proof.Machine
end

