-- ==== Sys2Proof/Machine/Assembler.lean ====
section
/-! DEFINITION. The host's side (30_encoding.md R57 to R60, 41_checksum_unit.md R85): statements and pseudo-instructions
as accesses, and the host procedures the document's two calls stand for. -/

namespace Sys2Proof.Machine

/-- The access a statement stands for (R58). -/
def Stmt.access : Stmt → Access
  | .wr r v => .write r.offset 8 v
  | .wrb i c => .write (0x80 + i.val) 1 c
  | .rd r => .load r.offset 8
  | .rdb i => .load (0x80 + i.val) 1
  | .issue w => .write 0x58 8 w

/-- The statement that issues a command (R58, R52). -/
def commandStmt (i : Instr) : Stmt := .issue (encode i)

/-- `AUTO` as the checksum argument (R59). -/
def autoChecksum : Word := BitVec.ofNat 64 Config.ckAuto

/-- `code`: the ASCII code of a character (R59). -/
def charCode (c : Char) : Byte := BitVec.ofNat 8 c.toNat

/-- `WRB i, code(c)` for each character in turn, from position `i` on (R59). -/
def writeChars : Nat → List Char → List Stmt
  | _, [] => []
  | i, c :: rest => if h : i < 32 then .wrb ⟨i, h⟩ (charCode c) :: writeChars (i + 1) rest else []

/-- `RDB i` for `i` from 0 up to `k` (R59). -/
def readBytes (k : Nat) : List Stmt := (List.range k).filterMap fun i => if h : i < 32 then some (.rdb ⟨i, h⟩) else none

/-- The expansion of a program line (R59). -/
def Pseudo.expand : Pseudo → List Stmt
  | .stmt x => [x]
  | .wrp v => [.wr .packedLo (v.extractLsb' 0 64), .wr .packedHi (v.extractLsb' 64 64)]
  | .wrfields g s sec ck u x =>
    [.wr (.field .group) g, .wr (.field .serial) s, .wr (.field .security) sec, .wr (.field .checksum) ck,
      .wr (.field .upgrade) u, .wr (.field .extra) x]
  | .wrtext t => writeChars 0 t.toList ++ [.wr .textlen (BitVec.ofNat 64 t.length)]
  | .rdp => [.rd .packedLo, .rd .packedHi]
  | .rdtext n => .rd .textlen :: readBytes (min n.toNat Config.textCap)
  | .expect _ _ => []

/-- What an `EXPECT` asserts of the state it stands at; every other line asserts nothing (R59). -/
def Pseudo.holdsAt (s : State) : Pseudo → Bool
  | .expect r v => s.loadReg r == v
  | .stmt _ | .wrp _ | .wrfields _ _ _ _ _ _ | .wrtext _ | .rdp | .rdtext _ => true

/-- A host program as the list of accesses it is (R57). -/
def assemble (p : List Pseudo) : List HostEvent := (p.flatMap Pseudo.expand).map fun x => .access x.access

/-- `encode_key(group, serial, security, upgrade, extra, checksum)` (R60): the fields, ENCKEY, RDTEXT. `textlen` is what the
RDTEXT's own read of `TEXTLEN` returns (R59): 29 after a success (43_key_commands.md R105), and what `TEXTLEN` held before
after an error, which changes STATUS alone. -/
def encodeKeyCall (g s sec ck u x textlen : Word) : List Pseudo :=
  [.wrfields g s sec ck u x, .stmt (commandStmt .enckey), .rdtext textlen]

/-- `decode_key(text)` (R60): the text, DECKEY, six reads. -/
def decodeKeyCall (t : String) : List Pseudo :=
  [.wrtext t, .stmt (commandStmt .deckey), .stmt (.rd (.field .group)), .stmt (.rd (.field .serial)),
    .stmt (.rd (.field .security)), .stmt (.rd (.field .checksum)), .stmt (.rd (.field .upgrade)), .stmt (.rd (.field .extra))]

/-- The mask of the checksum bits 112:103 within `PACKED_HI` (41_checksum_unit.md R85). -/
def checksumMaskHi : Word := 0x0001FF8000000000#64

/-- After DECKEY and a read of `PACKED_HI` that returned `hi`: clear the checksum bits, CRC, and read what is to be
compared (41_checksum_unit.md R85). -/
def verifyChecksumCall (hi : Word) : List Pseudo :=
  [.stmt (.wr .packedHi (hi &&& ~~~ checksumMaskHi)), .stmt (commandStmt .crc), .stmt (.rd .crcout),
    .stmt (.rd (.field .checksum))]

end Sys2Proof.Machine
end

