-- ==== Sys2Proof/Safety.lean ====
section
/-! DEFINITION. What holds of every state a run reaches: the bits the spec says always read zero, and the values STATUS
can have. -/

namespace Sys2Proof

/-- A value STATUS can hold (10_state.md R20, 60_exceptions.md R109): bits 7:3 and 63:16 zero, ERR at most 5, and INFO a field
index, a character that no key may hold, or 0. -/
def LegalStatus (a : List Byte) (w : Word) : Prop :=
  w.toNat < 2 ^ 16 ∧ w.toNat / 2 ^ 3 % 2 ^ 5 = 0 ∧ (Machine.statusErr w).toNat ≤ 5 ∧
  ((Machine.statusErr w).toNat = 1 → (Machine.statusInfo w).toNat ≤ 5) ∧
  ((Machine.statusErr w).toNat = 3 →
    Machine.statusInfo w ∉ a ∧ Machine.statusInfo w ≠ Config.marker ∧ Machine.statusInfo w ≠ Config.dash) ∧
  ((Machine.statusErr w).toNat ≠ 1 → (Machine.statusErr w).toNat ≠ 3 → Machine.statusInfo w = 0#8)

/-- The invariant of the block: the read-only result registers hold 10-bit values (10_state.md R18, R19) and STATUS a legal
one (R20). -/
structure Inv (s : Machine.State) : Prop where
  csused_small : s.csused.toNat < 1024
  crcout_small : s.crcout.toNat < 1024
  status_legal : LegalStatus Config.alphabet s.status

/-- A run is safe as long as its steps are admitted: the outcome is a next state that keeps the invariant. -/
def SafeOutcome (o : Machine.Result) : Prop := ∃ t, o = .next t ∧ Inv t

end Sys2Proof
end

