-- ==== Sys2Proof/WellFormed.lean ====
section
/-! DEFINITION. What counts as well formed: an instruction, an alphabet, a host access, a host statement, a program line. -/

namespace Sys2Proof

/-- Every command is well formed: none has an operand to check (30_encoding.md R53). -/
def Instr.wf : Instr → Bool
  | .pack | .unpack | .crc | .tenc | .tdec | .enckey | .deckey => true

/-- The side conditions on the parameter `ALPHABET` (00_scope.md R7, 42_text_transform.md R86): 24 distinct codes, none equal
to `MARKER` or `DASH`. -/
def Alphabet.wf (a : List Byte) : Bool :=
  a.length == Config.radix && decide a.Nodup && !a.contains Config.marker && !a.contains Config.dash

namespace Machine

/-- The offsets of the 8-byte registers, as 20_memory.md R36 lists them. -/
def wordOffsets : List Nat :=
  [0x00, 0x08, 0x10, 0x18, 0x20, 0x28, 0x30, 0x38, 0x40, 0x48, 0x50, 0x58, 0x60]

/-- The accesses that are admitted, exactly (20_memory.md R36). -/
def admitted (off n : Nat) : Bool :=
  (n == 8 && wordOffsets.contains off) || (n == 1 && decide (0x80 ≤ off) && decide (off ≤ 0x9F))

/-- `Access.wf`: an access is well formed when it is admitted. -/
def Access.wf : Access → Bool
  | .write off n _ => admitted off n
  | .load off n => admitted off n

/-- The registers `WR` may name (30_encoding.md R58). -/
def Reg.writable : Reg → Bool
  | .field _ | .packedLo | .packedHi | .textlen => true
  | .csused | .crcout | .status | .cmd => false

/-- The registers `RD` may name (30_encoding.md R58). -/
def Reg.readable : Reg → Bool
  | .field _ | .packedLo | .packedHi | .textlen | .csused | .crcout | .status => true
  | .cmd => false

/-- A host statement names registers of its kind, and a command statement issues one of the seven words (R58, R52). -/
def Stmt.wf : Stmt → Bool
  | .wr r _ => r.writable
  | .wrb _ _ | .rdb _ => true
  | .rd r => r.readable
  | .issue w => decide (1 ≤ w.toNat) && decide (w.toNat ≤ 7)

/-- A program line is well formed (30_encoding.md R59): a text of at most 32 characters, each with an 8-bit code. -/
def Pseudo.wf : Pseudo → Bool
  | .stmt x => x.wf
  | .wrtext t => decide (t.length ≤ Config.textCap) && t.toList.all fun c => decide (c.toNat < 128)
  | .expect r _ => r.readable
  | .wrp _ | .wrfields _ _ _ _ _ _ | .rdp | .rdtext _ => true

end Machine
end Sys2Proof
end

