-- ==== Sys2Proof/Certificates/Slice0/Obligations.lean ====
section
/-! DEFINITION. The statements for the provers. First the closed forms they are written in, on the registers' numbers and
with the spec's own constants; then the obligations, in the order of OBLIGATIONS.json. -/

namespace Sys2Proof.SpecForm

open Sys2Proof.Machine

/-- The bounds of 40_field_packer.md R62 on the six field registers. -/
def FieldsInBounds (s : State) : Prop :=
  s.group.toNat ≤ 0xFFFFF ∧ s.serial.toNat ≤ 0x3FFFFFFF ∧ s.security.toNat ≤ 0x1FFFFFFFFFFFFF ∧
  1 ≤ s.checksum.toNat ∧ s.checksum.toNat ≤ 1024 ∧ s.upgrade.toNat ≤ 1 ∧ s.extra.toNat ≤ 1

/-- The partial integer as a sum: "OR equals addition" within the bounds (40_field_packer.md R65). -/
def partialSum (s : State) : Nat :=
  s.group.toNat + s.serial.toNat * 2 ^ 20 + s.security.toNat * 2 ^ 50 + s.upgrade.toNat * 2 ^ 113 + s.extra.toNat * 2 ^ 114

/-- One bit of the CRC on numbers (41_checksum_unit.md R78): shift left within 32 bits, and XOR the polynomial exactly when
bit 31 was set. -/
def crcBitNum (r : Nat) : Nat := if 2 ^ 31 ≤ r then (2 * r % 2 ^ 32) ^^^ 0x04C11DB7 else 2 * r % 2 ^ 32

/-- `CrcByte(r, b)` on numbers (R78): the byte XORed into the top eight bits, then eight bits. -/
def crcByteNum (r b : Nat) : Nat := crcBitNum^[8] (r ^^^ (b * 2 ^ 24))

/-- `CrcReg(n)` on numbers (R79): sixteen bytes from 0xFFFFFFFF, bits 7:0 first. -/
def crcRegNum (n : Nat) : Nat :=
  (List.range 16).foldl (fun r i => crcByteNum r (n / 2 ^ (8 * i) % 2 ^ 8)) 0xFFFFFFFF

/-- `Crc10(n)` on numbers (R80): the low 10 bits of the 32-bit complement. -/
def crc10Num (n : Nat) : Nat := (2 ^ 32 - 1 - crcRegNum n) % 2 ^ 10

/-- The checksum used: computed over the partial integer for the sentinel 1024, else the one supplied (R64). -/
def usedChecksum (s : State) : Nat :=
  if s.checksum.toNat = 1024 then crc10Num (partialSum s) else s.checksum.toNat

/-- The packed integer as a sum (R66). -/
def packedSum (s : State) : Nat := partialSum s + usedChecksum s * 2 ^ 103

/-- The accesses of 20_memory.md R36, spelled out. -/
def Admitted (off n : Nat) : Prop :=
  (n = 8 ∧ off ∈ [0x00, 0x08, 0x10, 0x18, 0x20, 0x28, 0x30, 0x38, 0x40, 0x48, 0x50, 0x58, 0x60]) ∨
  (n = 1 ∧ 0x80 ≤ off ∧ off ≤ 0x9F)

/-- `s` with a host event put before the events `rest`. -/
def facing (e : HostEvent) (rest : List HostEvent) (s : State) : State := { s with pending := e :: rest }

/-- `MemWrite(off, 8, v)`. -/
def writeWord (off : Nat) (v : Word) : HostEvent := .access (.write off 8 v)

/-- `MemWrite(off, 1, c)`. -/
def writeByte (off : Nat) (c : Byte) : HostEvent := .access (.write off 1 c)

/-- `MemRead(off, n)`. -/
def readAt (off n : Nat) : HostEvent := .access (.load off n)

/-- Character `k` of the key of `n` (42_text_transform.md R88 to R91): a dash at 5, 11, 17, 23; else content character
`k - k div 6`, which is the marker at the top digit and else the symbol of the digit the position belongs to. -/
def keyChar (a : List Byte) (n k : Nat) : Byte :=
  if k = 5 ∨ k = 11 ∨ k = 17 ∨ k = 23 then 0x2D#8
  else if k - k / 6 = n / 24 ^ 24 then 0x4E#8
  else a.getD (n / 24 ^ (23 - (if k - k / 6 < n / 24 ^ 24 then k - k / 6 else k - k / 6 - 1)) % 24) 0#8

/-- The input text of TDEC and DECKEY, `TEXT[0..TEXTLEN-1]` (R102). -/
def inputOf (s : State) : List Byte := s.text.toList.take s.textlen.toNat

/-- The text without its dashes (R95). -/
def contentOf (t : List Byte) : List Byte := t.filter fun c => decide (c ≠ 0x2D#8)

/-- A text that passes step 1 of `Decode` (R96): 25 characters without the dashes, one of them the marker. -/
def WellShaped (t : List Byte) : Prop := (contentOf t).length = 25 ∧ (contentOf t).count 0x4E#8 = 1

/-- A character of "the alphabet/marker/dash set" (60_exceptions.md R109). -/
def KnownChar (a : List Byte) (c : Byte) : Prop := c ∈ a ∨ c = 0x4E#8 ∨ c = 0x2D#8

/-- The integer of a text (R99): `p * 24^24 + sum over j in 0..23 of Idx(r[j]) * 24^(23-j)`, `p` the marker's position. -/
def textValue (a t : List Byte) : Nat :=
  (contentOf t).idxOf 0x4E#8 * 24 ^ 24 +
  ((List.range 24).map fun j =>
    a.idxOf (((contentOf t).filter fun c => decide (c ≠ 0x4E#8)).getD j 0#8) * 24 ^ (23 - j)).sum

/-- The six field registers at the fields of the integer `n` (40_field_packer.md R70, with division and remainder for shift
and mask). -/
def withFieldsOf (n : Nat) (s : State) : State :=
  { s with
    group := BitVec.ofNat 64 (n % 2 ^ 20)
    serial := BitVec.ofNat 64 (n / 2 ^ 20 % 2 ^ 30)
    security := BitVec.ofNat 64 (n / 2 ^ 50 % 2 ^ 53)
    checksum := BitVec.ofNat 64 (n / 2 ^ 103 % 2 ^ 10)
    upgrade := BitVec.ofNat 64 (n / 2 ^ 113 % 2)
    extra := BitVec.ofNat 64 (n / 2 ^ 114 % 2) }

/-- The registers a command reads agree in two states (10_state.md R28). -/
def OperandsAgree (i : Instr) (s s' : State) : Prop :=
  match i with
  | .pack | .enckey =>
    s.group = s'.group ∧ s.serial = s'.serial ∧ s.security = s'.security ∧ s.checksum = s'.checksum ∧
    s.upgrade = s'.upgrade ∧ s.extra = s'.extra
  | .unpack => s.packed.toNat % 2 ^ 115 = s'.packed.toNat % 2 ^ 115
  | .crc | .tenc => s.packed = s'.packed
  | .tdec | .deckey => s.textlen = s'.textlen ∧ ∀ k : Fin 32, k.val < s.textlen.toNat → s.text[k] = s'.text[k]

/-- The registers a successful command writes agree in two states (10_state.md R28). -/
def ResultsAgree (i : Instr) (t t' : State) : Prop :=
  match i with
  | .pack => t.packed = t'.packed ∧ t.csused = t'.csused
  | .unpack =>
    t.group = t'.group ∧ t.serial = t'.serial ∧ t.security = t'.security ∧ t.checksum = t'.checksum ∧
    t.upgrade = t'.upgrade ∧ t.extra = t'.extra
  | .crc => t.crcout = t'.crcout
  | .tenc => t.text = t'.text ∧ t.textlen = t'.textlen
  | .tdec => t.packed = t'.packed
  | .enckey => t.packed = t'.packed ∧ t.csused = t'.csused ∧ t.text = t'.text ∧ t.textlen = t'.textlen
  | .deckey =>
    t.packed = t'.packed ∧ t.group = t'.group ∧ t.serial = t'.serial ∧ t.security = t'.security ∧
    t.checksum = t'.checksum ∧ t.upgrade = t'.upgrade ∧ t.extra = t'.extra

/-- An event of an instance's own host: an admitted access, or a reset. -/
def OwnEvent : HostEvent → Prop
  | .access (.write off n _) => Admitted off n
  | .access (.load off n) => Admitted off n
  | .reset => True
  | .otherHost _ => False

/-- Two instances under one schedule: `true` lets the first take its next step, `false` the second. None as soon as one
stops. -/
def runPair : List Bool → State → State → Option (State × State)
  | [], s, s' => some (s, s')
  | true :: sched, s, s' =>
    match step s with
    | .next t => runPair sched t s'
    | .fault _ => none
    | .refused _ => none
  | false :: sched, s, s' =>
    match step s' with
    | .next t' => runPair sched s t'
    | .fault _ => none
    | .refused _ => none

end Sys2Proof.SpecForm

open Sys2Proof Sys2Proof.Machine Sys2Proof.SpecForm

/-! ## The command word -/

/-- 30_encoding.md R52, the `w` column written out. -/
def Obligations.OpcodeMapWordsDecode : Prop :=
  decode 0x0000000000000001#64 = .ok .pack ∧ decode 0x0000000000000002#64 = .ok .unpack ∧
  decode 0x0000000000000003#64 = .ok .crc ∧ decode 0x0000000000000004#64 = .ok .tenc ∧
  decode 0x0000000000000005#64 = .ok .tdec ∧ decode 0x0000000000000006#64 = .ok .enckey ∧
  decode 0x0000000000000007#64 = .ok .deckey

/-- 30_encoding.md R52: the whole map, "all 64 bits are decoded" and "there are no others". -/
def Obligations.OpcodeMapIsComplete : Prop :=
  ∀ w : Word,
    (decode w = .ok .pack ↔ w.toNat = 1) ∧ (decode w = .ok .unpack ↔ w.toNat = 2) ∧ (decode w = .ok .crc ↔ w.toNat = 3) ∧
    (decode w = .ok .tenc ↔ w.toNat = 4) ∧ (decode w = .ok .tdec ↔ w.toNat = 5) ∧ (decode w = .ok .enckey ↔ w.toNat = 6) ∧
    (decode w = .ok .deckey ↔ w.toNat = 7) ∧ ((∃ e, decode w = .error e) ↔ w.toNat < 1 ∨ 7 < w.toNat)

/-- 30_encoding.md R51, R52: the encoder and the decoder agree both ways. Decode of encode gives the command back, and no other word
decodes to it. -/
def Obligations.DecodeAndEncodeAgree : Prop :=
  (∀ i : Instr, i.wf = true → decode (encode i) = .ok i) ∧ ∀ (w : Word) (i : Instr), decode w = .ok i → w = encode i

/-- 30_encoding.md R54 with 60_exceptions.md R112: every word but 1 to 7. -/
def Obligations.IllegalWordRaisesIllegalCommand : Prop :=
  ∀ (s : State) (rest : List HostEvent) (w : Word), w.toNat < 1 ∨ 7 < w.toNat →
    step (facing (writeWord 0x58 w) rest s) = .next { s with pending := rest, status := 0x0005#64 }

/-- 30_encoding.md R51: a step on a `CMD` write is `exec` of the decoded command, the write being taken off the host's
list. -/
def Obligations.StepRunsTheDecodedCommand : Prop :=
  ∀ (s : State) (rest : List HostEvent) (w : Word) (i : Instr), decode w = .ok i →
    step (facing (writeWord 0x58 w) rest s) = exec i { s with pending := rest }

/-- With no access left the block does nothing. That a step then answers the same state is the model's choice (log 5). -/
def Obligations.IdleStepChangesNothing : Prop :=
  ∀ s : State, s.pending = [] → step s = .next s

/-! ## The register window -/

/-- 20_memory.md R36 and R41: an access has a step exactly when it is admitted, and is refused by name with its offset and
size otherwise. -/
def Obligations.AccessesAreAdmittedExactly : Prop :=
  ∀ (s : State) (rest : List HostEvent) (off n : Nat) (v : BitVec (8 * n)),
    (Admitted off n →
      (∃ t, step (facing (.access (.write off n v)) rest s) = .next t ∧ t.pending = rest) ∧
      ∃ t, step (facing (readAt off n) rest s) = .next t ∧ t.pending = rest) ∧
    (¬ Admitted off n →
      step (facing (.access (.write off n v)) rest s) = .refused (.unadmittedAccess off n) ∧
      step (facing (readAt off n) rest s) = .refused (.unadmittedAccess off n))

/-- 10_state.md R14, 20_memory.md R35, R40: a write of a field register or `TEXTLEN` stores all 64 bits and nothing
else. -/
def Obligations.FieldAndLengthWritesStore : Prop :=
  ∀ (s : State) (rest : List HostEvent) (v : Word),
    step (facing (writeWord 0x00 v) rest s) = .next { s with pending := rest, group := v } ∧
    step (facing (writeWord 0x08 v) rest s) = .next { s with pending := rest, serial := v } ∧
    step (facing (writeWord 0x10 v) rest s) = .next { s with pending := rest, security := v } ∧
    step (facing (writeWord 0x18 v) rest s) = .next { s with pending := rest, checksum := v } ∧
    step (facing (writeWord 0x20 v) rest s) = .next { s with pending := rest, upgrade := v } ∧
    step (facing (writeWord 0x28 v) rest s) = .next { s with pending := rest, extra := v } ∧
    step (facing (writeWord 0x60 v) rest s) = .next { s with pending := rest, textlen := v }

/-- 20_memory.md R40: a write of a read-only register changes nothing. -/
def Obligations.ReadOnlyWritesAreIgnored : Prop :=
  ∀ (s : State) (rest : List HostEvent) (v : Word) (off : Nat), off = 0x40 ∨ off = 0x48 ∨ off = 0x50 →
    step (facing (writeWord off v) rest s) = .next { s with pending := rest }

/-- 20_memory.md R37: each half of `PACKED` is written and read alone. -/
def Obligations.PackedIsAccessedAsTwoHalves : Prop :=
  ∀ (s : State) (rest : List HostEvent) (v : Word),
    step (facing (writeWord 0x30 v) rest s) =
      .next { s with pending := rest, packed := BitVec.ofNat 128 (s.packed.toNat / 2 ^ 64 * 2 ^ 64 + v.toNat) } ∧
    step (facing (writeWord 0x38 v) rest s) =
      .next { s with pending := rest, packed := BitVec.ofNat 128 (v.toNat * 2 ^ 64 + s.packed.toNat % 2 ^ 64) } ∧
    step (facing (readAt 0x30 8) rest s) =
      .next { s with pending := rest, observed := s.observed ++ [.word (BitVec.ofNat 64 (s.packed.toNat % 2 ^ 64))] } ∧
    step (facing (readAt 0x38 8) rest s) =
      .next { s with pending := rest, observed := s.observed ++ [.word (BitVec.ofNat 64 (s.packed.toNat / 2 ^ 64))] }

/-- 10_state.md R23, 20_memory.md R35, R36: one byte of `TEXT` is written or read at a time. -/
def Obligations.TextIsAccessedByteByByte : Prop :=
  ∀ (s : State) (rest : List HostEvent) (c : Byte) (i : Fin 32),
    (∃ T : Vector Byte 32,
      step (facing (writeByte (0x80 + i.val) c) rest s) = .next { s with pending := rest, text := T } ∧
      ∀ k : Fin 32, T[k] = if k = i then c else s.text[k]) ∧
    step (facing (readAt (0x80 + i.val) 1) rest s) =
      .next { s with pending := rest, observed := s.observed ++ [.byte s.text[i]] }

/-- 20_memory.md R40: a read returns the register's value, of `CMD` 0, and changes nothing (the value joins the host's
observation, 30_encoding.md R57). -/
def Obligations.ReadsReturnTheRegister : Prop :=
  ∀ (s : State) (rest : List HostEvent) (off : Nat) (v : Word),
    (off, v) ∈ [(0x00, s.group), (0x08, s.serial), (0x10, s.security), (0x18, s.checksum), (0x20, s.upgrade),
      (0x28, s.extra), (0x40, s.csused), (0x48, s.crcout), (0x50, s.status), (0x58, 0#64), (0x60, s.textlen)] →
    step (facing (readAt off 8) rest s) = .next { s with pending := rest, observed := s.observed ++ [.word v] }

/-- 10_state.md R32: no two registers share storage. After a write of one register it reads as written and every other
as before. -/
def Obligations.WritesReachOneRegisterOnly : Prop :=
  ∀ (s t : State) (rest : List HostEvent) (v : Word) (r : Reg), r.writable = true →
    step (facing (writeWord r.offset v) rest s) = .next t →
    t.loadReg r = v ∧ (∀ r' : Reg, r' ≠ r → t.loadReg r' = s.loadReg r') ∧ t.text = s.text

/-- 60_exceptions.md R124: an admitted access other than a write of `CMD` is accepted whatever its data and leaves STATUS
alone; one that is not admitted is refused and is no error of the block. -/
def Obligations.AccessesThemselvesRaiseNothing : Prop :=
  ∀ (s : State) (rest : List HostEvent) (off n : Nat) (v : BitVec (8 * n)),
    (Admitted off n →
      (off ≠ 0x58 → ∃ t, step (facing (.access (.write off n v)) rest s) = .next t ∧ t.status = s.status) ∧
      ∃ t, step (facing (readAt off n) rest s) = .next t ∧ t.status = s.status) ∧
    (¬ Admitted off n →
      (∃ r, step (facing (.access (.write off n v)) rest s) = .refused r) ∧
      ∃ r, step (facing (readAt off n) rest s) = .refused r)

/-- 20_memory.md R38, R39: the window's byte order. -/
def Obligations.WindowIsLittleEndian : Prop :=
  ∀ s : State,
    (∀ i : Nat, i < 16 →
      s.windowByte (0x30 + i) = (le16 s.packed)[i]? ∧
      s.windowByte (0x30 + i) = some (BitVec.ofNat 8 (s.packed.toNat / 2 ^ (8 * i)))) ∧
    ∀ (r : Reg) (j : Nat), j < 8 →
      s.windowByte (r.offset + j) = some (BitVec.ofNat 8 ((s.loadReg r).toNat / 2 ^ (8 * j)))

/-- 70_reset_and_hazards.md R133: writes of two different registers, of a register and a `TEXT` byte, or of two different
`TEXT` bytes may be made in either order. -/
def Obligations.RegisterWritesCommute : Prop :=
  ∀ (s : State) (rest : List HostEvent) (v v' : Word) (c c' : Byte) (r r' : Reg) (i j : Fin 32), r.writable = true →
    (r'.writable = true → r ≠ r' →
      ∃ t : State,
        core.run 2 (facing (writeWord r.offset v) (writeWord r'.offset v' :: rest) s) = .next t ∧
        core.run 2 (facing (writeWord r'.offset v') (writeWord r.offset v :: rest) s) = .next t ∧
        t.pending = rest ∧ t.loadReg r = v ∧ t.loadReg r' = v') ∧
    (∃ t : State,
      core.run 2 (facing (writeWord r.offset v) (writeByte (0x80 + i.val) c :: rest) s) = .next t ∧
      core.run 2 (facing (writeByte (0x80 + i.val) c) (writeWord r.offset v :: rest) s) = .next t ∧
      t.pending = rest ∧ t.loadReg r = v ∧ t.text[i] = c) ∧
    (i ≠ j →
      ∃ t : State,
        core.run 2 (facing (writeByte (0x80 + i.val) c) (writeByte (0x80 + j.val) c' :: rest) s) = .next t ∧
        core.run 2 (facing (writeByte (0x80 + j.val) c') (writeByte (0x80 + i.val) c :: rest) s) = .next t ∧
        t.pending = rest ∧ t.text[i] = c ∧ t.text[j] = c')

/-- 20_memory.md R47: a second host on one instance is refused. -/
def Obligations.SecondHostIsRefused : Prop :=
  ∀ (s : State) (rest : List HostEvent) (a : Access), step (facing (.otherHost a) rest s) = .refused .secondHost

/-- 20_memory.md R47: two instances, each driven by its own host, take every event of any interleaving and end as each would
alone, and neither can tell which it is: with the same registers and the same accesses they return the same values and end
with the same registers, whatever was read from them before. Either instance stops where a second host drives it. That a
schedule longer than a list does not stop (log 5), and that a reset leaves the host's two lists, so that `pending` is
dropped and `observed` appended to across it (log 8), are the model's choices. -/
def Obligations.InstancesDoNotInterfere : Prop :=
  (∀ (sched : List Bool) (s s' : State), (∀ e ∈ s.pending, OwnEvent e) → (∀ e ∈ s'.pending, OwnEvent e) →
    ∃ (t t' : State) (vs vs' : List ReadValue),
      runPair sched s s' = some (t, t') ∧
      core.run (sched.count true) s = .next t ∧ core.run (sched.count false) s' = .next t' ∧
      t.pending = s.pending.drop (sched.count true) ∧ t'.pending = s'.pending.drop (sched.count false) ∧
      t.observed = s.observed ++ vs ∧ t'.observed = s'.observed ++ vs' ∧
      (s' = { s with observed := s'.observed } → sched.count true = sched.count false →
        vs' = vs ∧ t' = { t with observed := t'.observed })) ∧
  ∀ (sched : List Bool) (s s' : State) (a : Access) (rest : List HostEvent),
    runPair (true :: sched) (facing (.otherHost a) rest s) s' = none ∧
    runPair (false :: sched) s (facing (.otherHost a) rest s') = none

/-- 30_encoding.md R58: a well-formed statement is an admitted access, and a command's statement runs the command. -/
def Obligations.StatementsAreAdmittedAccesses : Prop :=
  (∀ x : Stmt, x.wf = true → x.access.wf = true) ∧
  ∀ (i : Instr) (s : State) (rest : List HostEvent),
    (commandStmt i).wf = true ∧
    step (facing (.access (commandStmt i).access) rest s) = exec i { s with pending := rest }

/-! ## Reset -/

/-- 10_state.md R30. -/
def Obligations.ResetRegistersAreZero : Prop :=
  State.reset.group = 0#64 ∧ State.reset.serial = 0#64 ∧ State.reset.security = 0#64 ∧ State.reset.checksum = 0#64 ∧
  State.reset.upgrade = 0#64 ∧ State.reset.extra = 0#64 ∧ State.reset.packed = 0#128 ∧ State.reset.csused = 0#64 ∧
  State.reset.crcout = 0#64 ∧ State.reset.status = 0#64 ∧ State.reset.textlen = 0#64 ∧
  (∀ i : Fin 32, State.reset.text[i] = 0#8) ∧
  exec .pack State.reset = .next { State.reset with status := 0x0301#64 } ∧
  exec .tdec State.reset = .next { State.reset with status := 0x0004#64 }

/-- 70_reset_and_hazards.md R126: reset replaces every register. That the host's two lists stay is the model's choice
(log 8). -/
def Obligations.ResetEventReplacesEveryRegister : Prop :=
  ∀ (s : State) (rest : List HostEvent),
    step (facing .reset rest s) = .next { State.reset with pending := rest, observed := s.observed }

/-! ## Errors and invariants -/

/-- The invariant of Safety.lean holds at reset. -/
def Obligations.ResetMeetsTheInvariant : Prop := Inv State.reset

/-- 10_state.md R18, R19, R20: every step, of every host event, keeps the invariant. -/
def Obligations.EveryStepKeepsTheInvariant : Prop :=
  ∀ s t : State, Inv s → step s = .next t → Inv t

/-- 00_scope.md R12: every command is a total function of the state; it leaves the host's lists alone. -/
def Obligations.EveryCommandCompletes : Prop :=
  ∀ (i : Instr) (s : State), ∃ t : State, exec i s = .next t ∧ t.pending = s.pending ∧ t.observed = s.observed

/-- 60_exceptions.md R113: a command that does not end with STATUS 0 ends in the state before it with STATUS replaced by
`code(E) | (info << 8)`. -/
def Obligations.FailedCommandChangesOnlyStatus : Prop :=
  ∀ (i : Instr) (s t : State), exec i s = .next t → t.status ≠ 0#64 →
    ∃ e : CodecError, e.info ≤ 255 ∧ t = { s with status := BitVec.ofNat 64 (e.code ||| (e.info <<< 8)) }

/-- 10_state.md R20: STATUS is overwritten whole and no command reads it. -/
def Obligations.CommandsDoNotReadStatus : Prop :=
  ∀ (i : Instr) (s : State) (v : Word), exec i { s with status := v } = exec i s

/-- 60_exceptions.md R109, the column "raised by". -/
def Obligations.CommandsRaiseTheirOwnErrorsOnly : Prop :=
  ∀ (i : Instr) (s t : State), exec i s = .next t →
    match i with
    | .pack | .enckey => t.status = 0#64 ∨ t.status = 0x0002#64 ∨ ∃ k, k ≤ 5 ∧ t.status = BitVec.ofNat 64 (1 + 256 * k)
    | .unpack | .crc => t.status = 0#64
    | .tenc => t.status = 0#64 ∨ t.status = 0x0002#64
    | .tdec | .deckey =>
      t.status = 0#64 ∨ t.status = 0x0004#64 ∨
      ∃ c : Byte, ¬ KnownChar Config.alphabet c ∧ t.status = BitVec.ofNat 64 (3 + 256 * c.toNat)

/-- 10_state.md R28, the writes column: a register not listed for a command is as before. -/
def Obligations.CommandsWriteListedRegistersOnly : Prop :=
  ∀ (i : Instr) (s t : State), exec i s = .next t →
    (i ≠ .unpack → i ≠ .deckey →
      t.group = s.group ∧ t.serial = s.serial ∧ t.security = s.security ∧ t.checksum = s.checksum ∧
      t.upgrade = s.upgrade ∧ t.extra = s.extra) ∧
    (i ≠ .pack → i ≠ .tdec → i ≠ .enckey → i ≠ .deckey → t.packed = s.packed) ∧
    (i ≠ .pack → i ≠ .enckey → t.csused = s.csused) ∧
    (i ≠ .crc → t.crcout = s.crcout) ∧
    (i ≠ .tenc → i ≠ .enckey → t.text = s.text ∧ t.textlen = s.textlen) ∧
    t.pending = s.pending ∧ t.observed = s.observed

/-- 10_state.md R28, the reads column: a command's outcome and results depend on the registers listed for it alone. -/
def Obligations.CommandsReadListedRegistersOnly : Prop :=
  ∀ (i : Instr) (s s' t t' : State), OperandsAgree i s s' → exec i s = .next t → exec i s' = .next t' →
    t.status = t'.status ∧ (t.status = 0#64 → ResultsAgree i t t')

/-- 40_field_packer.md R69, for PACK and every other command. -/
def Obligations.CommandsAreIdempotent : Prop :=
  ∀ (i : Instr) (s t : State), exec i s = .next t → exec i t = .next t

/-! ## PACK and UNPACK -/

/-- 10_state.md R15: the layout table, and that it is the layout the commands use. UNPACK reads each field at its offset and
width, which is what its mask selects; PACK puts each field there and rejects a field over its maximum (the checksum's
input has bounds of its own, 90_conflicts.md C4). -/
def Obligations.FieldLayoutTable : Prop :=
  ([Field.group, .serial, .security, .checksum, .upgrade, .extra].map fun f =>
      (f.index, f.bitOffset, f.width, f.maxValue, f.mask)) =
    [(0, 0, 20, 0xFFFFF, 0x000000000000000000000000000FFFFF), (1, 20, 30, 0x3FFFFFFF, 0x00000000000000000003FFFFFFF00000),
      (2, 50, 53, 0x1FFFFFFFFFFFFF, 0x0000007FFFFFFFFFFFFC000000000000), (3, 103, 10, 0x3FF, 0x0001FF80000000000000000000000000),
      (4, 113, 1, 1, 0x00020000000000000000000000000000), (5, 114, 1, 1, 0x00040000000000000000000000000000)] ∧
  (∀ s : State, ∃ t : State, exec .unpack s = .next t ∧ ∀ f : Field,
    (t.fieldReg f).toNat = s.packed.toNat / 2 ^ f.bitOffset % 2 ^ f.width ∧
    (t.fieldReg f).toNat * 2 ^ f.bitOffset = s.packed.toNat &&& f.mask) ∧
  ∀ s t : State, exec .pack s = .next t →
    (t.status = 0#64 → ∀ f : Field,
      t.packed.toNat / 2 ^ f.bitOffset % 2 ^ f.width = (if f = .checksum then t.csused else s.fieldReg f).toNat) ∧
    ∀ f : Field, f ≠ .checksum → f.maxValue < (s.fieldReg f).toNat → statusErr t.status = 1#3

/-- 40_field_packer.md R62, R63 and 60_exceptions.md R110: the first field out of bounds is named, and nothing but STATUS
changes; the same for PACK and ENCKEY. -/
def Obligations.OutOfBoundsNamesTheFirstField : Prop :=
  ∀ (i : Instr) (s : State), i = .pack ∨ i = .enckey →
    (0xFFFFF < s.group.toNat → exec i s = .next { s with status := 0x0001#64 }) ∧
    (s.group.toNat ≤ 0xFFFFF → 0x3FFFFFFF < s.serial.toNat → exec i s = .next { s with status := 0x0101#64 }) ∧
    (s.group.toNat ≤ 0xFFFFF → s.serial.toNat ≤ 0x3FFFFFFF → 0x1FFFFFFFFFFFFF < s.security.toNat →
      exec i s = .next { s with status := 0x0201#64 }) ∧
    (s.group.toNat ≤ 0xFFFFF → s.serial.toNat ≤ 0x3FFFFFFF → s.security.toNat ≤ 0x1FFFFFFFFFFFFF →
      s.checksum.toNat = 0 ∨ 1024 < s.checksum.toNat → exec i s = .next { s with status := 0x0301#64 }) ∧
    (s.group.toNat ≤ 0xFFFFF → s.serial.toNat ≤ 0x3FFFFFFF → s.security.toNat ≤ 0x1FFFFFFFFFFFFF →
      1 ≤ s.checksum.toNat → s.checksum.toNat ≤ 1024 → 1 < s.upgrade.toNat →
      exec i s = .next { s with status := 0x0401#64 }) ∧
    (s.group.toNat ≤ 0xFFFFF → s.serial.toNat ≤ 0x3FFFFFFF → s.security.toNat ≤ 0x1FFFFFFFFFFFFF →
      1 ≤ s.checksum.toNat → s.checksum.toNat ≤ 1024 → s.upgrade.toNat ≤ 1 → 1 < s.extra.toNat →
      exec i s = .next { s with status := 0x0501#64 })

/-- 40_field_packer.md R64 to R68: PACK's result. Every other register and `TEXT` are as before. -/
def Obligations.PackStoresTheFieldSum : Prop :=
  ∀ s : State, FieldsInBounds s → s.extra.toNat = 0 ∨ packedSum s ≤ 24 ^ 25 →
    exec .pack s = .next { s with
      packed := BitVec.ofNat 128 (packedSum s), csused := BitVec.ofNat 64 (usedChecksum s), status := 0#64 }

/-- 40_field_packer.md R67, for PACK and ENCKEY: the check is made when `extra` is not 0, and its bound is inclusive. -/
def Obligations.UnencodableAboveTheLimit : Prop :=
  ∀ (i : Instr) (s : State), i = .pack ∨ i = .enckey → FieldsInBounds s →
    (s.extra.toNat ≠ 0 → 24 ^ 25 < packedSum s → exec i s = .next { s with status := 0x0002#64 }) ∧
    (s.extra.toNat = 0 ∨ packedSum s ≤ 24 ^ 25 → ∃ t : State, exec i s = .next t ∧ t.status = 0#64)

/-- 40_field_packer.md R74: where `Unencodable` can arise. -/
def Obligations.UnencodableArisesExactlyWhere : Prop :=
  ∀ s : State, FieldsInBounds s →
    (exec .pack s = .next { s with status := 0x0002#64 } ↔
      s.extra.toNat = 1 ∧ s.upgrade.toNat = 1 ∧
      (84 < usedChecksum s ∨ (usedChecksum s = 84 ∧
        ¬ (s.security.toNat < 0xCAC5546000000 ∨
          (s.security.toNat = 0xCAC5546000000 ∧ s.serial.toNat = 0 ∧ s.group.toNat = 0)))))

/-- 40_field_packer.md R70 to R72: UNPACK's result, bits 127:115 ignored. Every other register and `TEXT` are as before. -/
def Obligations.UnpackExtractsTheFields : Prop :=
  ∀ s : State, exec .unpack s = .next { withFieldsOf s.packed.toNat s with status := 0#64 }

/-- 40_field_packer.md R73: after PACK and UNPACK with no error, the registers are as PACK left them but for CHECKSUM, which
is CSUSED. -/
def Obligations.UnpackRestoresThePackedFields : Prop :=
  ∀ s t : State, exec .pack s = .next t → t.status = 0#64 →
    exec .unpack t = .next { t with checksum := t.csused } ∧
    t.group = s.group ∧ t.serial = s.serial ∧ t.security = s.security ∧ t.upgrade = s.upgrade ∧ t.extra = s.extra ∧
    (s.checksum.toNat ≠ 1024 → t.csused = s.checksum)

/-- 40_field_packer.md R75: PACK after UNPACK gives bits 114:0 back, or fails in one of two ways. -/
def Obligations.PackAfterUnpack : Prop :=
  ∀ s t : State, exec .unpack s = .next t →
    (s.packed.toNat / 2 ^ 103 % 2 ^ 10 = 0 → exec .pack t = .next { t with status := 0x0301#64 }) ∧
    (s.packed.toNat / 2 ^ 103 % 2 ^ 10 ≠ 0 → s.packed.toNat % 2 ^ 115 ≤ 24 ^ 25 →
      exec .pack t = .next { t with
        packed := BitVec.ofNat 128 (s.packed.toNat % 2 ^ 115), csused := t.checksum, status := 0#64 }) ∧
    (s.packed.toNat / 2 ^ 103 % 2 ^ 10 ≠ 0 → 24 ^ 25 < s.packed.toNat % 2 ^ 115 →
      exec .pack t = .next { t with status := 0x0002#64 })

/-! ## CRC -/

/-- 41_checksum_unit.md R78 to R80, R82: CRC's result, the low 10 bits of the 32-bit complement, in the spec's own numbers.
Every other register and `TEXT` are as before. -/
def Obligations.CrcStoresTheComplementedLowBits : Prop :=
  ∀ s : State, exec .crc s = .next { s with crcout := BitVec.ofNat 64 (crc10Num s.packed.toNat), status := 0#64 }

/-- 41_checksum_unit.md R83: the byte step equals the table form, with `T[i] = CrcByte(0, i)` spelled in R78's numbers. -/
def Obligations.CrcByteEqualsItsTableForm : Prop :=
  ∀ (reg : CrcWord) (b : Byte),
    (crcByte reg b).toNat =
      (reg.toNat * 2 ^ 8 % 2 ^ 32) ^^^ crcByteNum 0 ((reg.toNat / 2 ^ 24) ^^^ b.toNat)

/-- 41_checksum_unit.md R79 with R83 and 20_memory.md R38: the register after 16 bytes is the table-driven one over the
window's bytes 0x30 to 0x3F in that order, and the one R78 and R79 give in numbers. -/
def Obligations.CrcRunsOverTheWindowBytes : Prop :=
  ∀ s : State,
    ((List.range 16).map fun i => s.windowByte (0x30 + i)).foldl
      (fun reg b => reg.bind fun r => b.map fun c => crcByteByTable r c) (some 0xFFFFFFFF#32) = some (crcReg s.packed) ∧
    (crcReg s.packed).toNat = crcRegNum s.packed.toNat

/-! ## TENC and TDEC -/

/-- 42_text_transform.md R88. -/
def Obligations.DigitsExpandTheInteger : Prop :=
  ∀ n : Nat, n ≤ 24 ^ 25 →
    (digits n).length = 25 ∧ (∀ i, i < 24 → (digits n)[i]? = some (n / 24 ^ i % 24)) ∧
    (digits n)[24]? = some (n / 24 ^ 24) ∧ n / 24 ^ 24 ≤ 24 ∧ (n / 24 ^ 24 = 24 → n = 24 ^ 25) ∧
    n = n / 24 ^ 24 * 24 ^ 24 + ((List.range 24).map fun i => (digits n).getD i 0 * 24 ^ i).sum

/-- 42_text_transform.md R87 to R92, for an arbitrary alphabet: `Encode` character by character, and its domain. -/
def Obligations.EncodeTextCharByChar : Prop :=
  ∀ (a : List Byte) (n : Nat), Alphabet.wf a = true →
    (n ≤ 24 ^ 25 → ∃ t : List Byte, encodeText a n = .ok t ∧ t.length = 29 ∧
      ∀ k, k < 29 → t[k]? = some (keyChar a n k)) ∧
    (24 ^ 25 < n → encodeText a n = .error .unencodable)

/-- 42_text_transform.md R104: marker placement, alphabet closure, one marker and four dashes at their places. -/
def Obligations.EncodedTextHasTheKeyShape : Prop :=
  ∀ (a t : List Byte) (n : Nat), Alphabet.wf a = true → encodeText a n = .ok t →
    t.length = 29 ∧ t.count Config.marker = 1 ∧ t.count Config.dash = 4 ∧
    (∀ c ∈ t, c ∈ a ∨ c = Config.marker ∨ c = Config.dash) ∧
    (∀ k ∈ [5, 11, 17, 23], t[k]? = some Config.dash) ∧
    (n / 24 ^ 24 = 0 → t[0]? = some Config.marker) ∧ (n / 24 ^ 24 = 24 → t[28]? = some Config.marker)

/-- 42_text_transform.md R93: TENC's result, and its failure above `LIMIT`. Every other register is as before. -/
def Obligations.TencWritesTheKeyUpToTheLimit : Prop :=
  ∀ s : State,
    (s.packed.toNat ≤ 24 ^ 25 → ∃ T : Vector Byte 32,
      exec .tenc s = .next { s with text := T, textlen := 29#64, status := 0#64 } ∧
      ∀ k : Fin 32, T[k] = if k.val < 29 then keyChar Config.alphabet s.packed.toNat k.val else 0#8) ∧
    (24 ^ 25 < s.packed.toNat → exec .tenc s = .next { s with status := 0x0002#64 })

/-- 42_text_transform.md R103, for an arbitrary alphabet: `Decode(Encode(n)) == n`. -/
def Obligations.DecodeTextInvertsEncodeText : Prop :=
  ∀ (a : List Byte) (n : Nat), Alphabet.wf a = true → n ≤ 24 ^ 25 →
    ∃ t : List Byte, encodeText a n = .ok t ∧ decodeText a t = .ok n

/-- 42_text_transform.md R100, for an arbitrary alphabet: the range of `Decode`, and that its maximum is reached. -/
def Obligations.DecodeTextRange : Prop :=
  ∀ a : List Byte, Alphabet.wf a = true →
    (∀ (t : List Byte) (n : Nat), decodeText a t = .ok n → n ≤ 25 * 24 ^ 24 - 1 ∧ n < 2 ^ 115) ∧
    decodeText a (List.replicate 24 (a.getD 23 0#8) ++ [Config.marker]) = .ok (25 * 24 ^ 24 - 1)

/-- 42_text_transform.md R96 and 60_exceptions.md R115, for TDEC and DECKEY: a text over the buffer, of the wrong length or
without exactly one marker. Nothing but STATUS changes, whatever the characters are (R101). -/
def Obligations.MalformedTextIsReportedFirst : Prop :=
  ∀ (i : Instr) (s : State), i = .tdec ∨ i = .deckey →
    32 < s.textlen.toNat ∨ (contentOf (inputOf s)).length ≠ 25 ∨ (contentOf (inputOf s)).count 0x4E#8 ≠ 1 →
    exec i s = .next { s with status := 0x0004#64 }

/-- 42_text_transform.md R98 and 60_exceptions.md R114, for TDEC and DECKEY: the leftmost foreign character of a
well-shaped text. Nothing but STATUS changes. -/
def Obligations.LeftmostForeignCharacterIsReported : Prop :=
  ∀ (i : Instr) (s : State) (before after : List Byte) (c : Byte), i = .tdec ∨ i = .deckey →
    s.textlen.toNat ≤ 32 → WellShaped (inputOf s) → inputOf s = before ++ c :: after →
    (∀ x ∈ before, KnownChar Config.alphabet x) → ¬ KnownChar Config.alphabet c →
    exec i s = .next { s with status := BitVec.ofNat 64 (3 + 256 * c.toNat) }

/-- 42_text_transform.md R99, R102: TDEC's result. Every other register and `TEXT` are as before. -/
def Obligations.TdecStoresTheTextValue : Prop :=
  ∀ s : State, s.textlen.toNat ≤ 32 → WellShaped (inputOf s) → (∀ c ∈ inputOf s, KnownChar Config.alphabet c) →
    exec .tdec s = .next { s with packed := BitVec.ofNat 128 (textValue Config.alphabet (inputOf s)), status := 0#64 }

/-- 42_text_transform.md R102: the bytes of `TEXT` at and after `TEXTLEN` are not read. -/
def Obligations.TextBeyondTheLengthIsNotRead : Prop :=
  ∀ (i : Instr) (s t : State) (T : Vector Byte 32), i = .tdec ∨ i = .deckey →
    (∀ k : Fin 32, k.val < s.textlen.toNat → T[k] = s.text[k]) → exec i s = .next t →
    exec i { s with text := T } = .next { t with text := T }

/-! ## ENCKEY and DECKEY -/

/-- 43_key_commands.md R105: ENCKEY's result. Every other register is as before. -/
def Obligations.EnckeyStoresThePackedKey : Prop :=
  ∀ s : State, FieldsInBounds s → s.extra.toNat = 0 ∨ packedSum s ≤ 24 ^ 25 → ∃ T : Vector Byte 32,
    exec .enckey s = .next { s with
      packed := BitVec.ofNat 128 (packedSum s), csused := BitVec.ofNat 64 (usedChecksum s),
      text := T, textlen := 29#64, status := 0#64 } ∧
    ∀ k : Fin 32, T[k] = if k.val < 29 then keyChar Config.alphabet (packedSum s) k.val else 0#8

/-- 43_key_commands.md R105: ENCKEY is PACK followed by TENC, which then cannot fail; on PACK's error it is PACK. -/
def Obligations.EnckeyIsPackThenTenc : Prop :=
  ∀ s t : State, exec .pack s = .next t →
    (t.status ≠ 0#64 → exec .enckey s = .next t) ∧
    (t.status = 0#64 → ∃ u : State, exec .tenc t = .next u ∧ u.status = 0#64 ∧ exec .enckey s = .next u)

/-- 43_key_commands.md R106: DECKEY's result. Every other register and `TEXT` are as before. -/
def Obligations.DeckeyStoresTheTextFields : Prop :=
  ∀ s : State, s.textlen.toNat ≤ 32 → WellShaped (inputOf s) → (∀ c ∈ inputOf s, KnownChar Config.alphabet c) →
    exec .deckey s = .next { withFieldsOf (textValue Config.alphabet (inputOf s)) s with
      packed := BitVec.ofNat 128 (textValue Config.alphabet (inputOf s)), status := 0#64 }

/-- 43_key_commands.md R106: DECKEY is TDEC followed by UNPACK; on TDEC's error it is TDEC. -/
def Obligations.DeckeyIsTdecThenUnpack : Prop :=
  ∀ s t : State, exec .tdec s = .next t →
    (t.status ≠ 0#64 → exec .deckey s = .next t) ∧ (t.status = 0#64 → exec .deckey s = exec .unpack t)

/-- 43_key_commands.md R108: after a successful ENCKEY, TDEC changes nothing, and DECKEY sets CHECKSUM to CSUSED and changes
nothing else. -/
def Obligations.DeckeyInvertsEnckey : Prop :=
  ∀ s t : State, exec .enckey s = .next t → t.status = 0#64 →
    exec .tdec t = .next t ∧ exec .deckey t = .next { t with checksum := t.csused }

/-- 41_checksum_unit.md R85: the host's verification procedure after DECKEY. Its CRC of the decoded integer, bits 112:103
cleared through `PACKED_HI`, equals the key's checksum if the key was encoded with the sentinel; both are the CRC, in
R78's numbers, of the integer with those bits cleared. -/
def Obligations.AutoChecksumKeysVerify : Prop :=
  ∀ (s t u : State) (rest : List HostEvent), s.checksum = 1024#64 → exec .enckey s = .next t → t.status = 0#64 →
    exec .deckey t = .next u →
    ∃ v : State,
      core.run 2 (facing (writeWord 0x38 (u.packedHi &&& ~~~ 0x0001FF8000000000#64)) (writeWord 0x58 3#64 :: rest) u) =
        .next v ∧
      v.crcout = u.checksum ∧
      u.checksum.toNat = crc10Num (u.packed.toNat - u.packed.toNat / 2 ^ 103 % 2 ^ 10 * 2 ^ 103)

/-! ## The CRC byte step -/

/-- 41_checksum_unit.md R78, in its own numbers: the byte XORed in at bit 24, then eight times a left shift within 32 bits,
XORed with 0x04C11DB7 exactly when the bit shifted out is 1. -/
def Obligations.CrcByteIsEightPolynomialSteps : Prop :=
  ∀ (reg : CrcWord) (b : Byte), (crcByte reg b).toNat = crcByteNum reg.toNat b.toNat
end

