-- ==== Sys2Proof/Laws/State.lean ====
section
/-! SUPPORT. One lemma per field per update of the state: what it is after the update. -/

namespace Sys2Proof.Machine

variable (s : State)

section setPacked
variable (v : PackedWord)
@[simp] theorem State.setPacked_group : (s.setPacked v).group = s.group := rfl
@[simp] theorem State.setPacked_serial : (s.setPacked v).serial = s.serial := rfl
@[simp] theorem State.setPacked_security : (s.setPacked v).security = s.security := rfl
@[simp] theorem State.setPacked_checksum : (s.setPacked v).checksum = s.checksum := rfl
@[simp] theorem State.setPacked_upgrade : (s.setPacked v).upgrade = s.upgrade := rfl
@[simp] theorem State.setPacked_extra : (s.setPacked v).extra = s.extra := rfl
@[simp] theorem State.setPacked_packed : (s.setPacked v).packed = v := rfl
@[simp] theorem State.setPacked_csused : (s.setPacked v).csused = s.csused := rfl
@[simp] theorem State.setPacked_crcout : (s.setPacked v).crcout = s.crcout := rfl
@[simp] theorem State.setPacked_status : (s.setPacked v).status = s.status := rfl
@[simp] theorem State.setPacked_textlen : (s.setPacked v).textlen = s.textlen := rfl
@[simp] theorem State.setPacked_text : (s.setPacked v).text = s.text := rfl
@[simp] theorem State.setPacked_pending : (s.setPacked v).pending = s.pending := rfl
@[simp] theorem State.setPacked_observed : (s.setPacked v).observed = s.observed := rfl
end setPacked

section setCsused
variable (v : Word)
@[simp] theorem State.setCsused_group : (s.setCsused v).group = s.group := rfl
@[simp] theorem State.setCsused_serial : (s.setCsused v).serial = s.serial := rfl
@[simp] theorem State.setCsused_security : (s.setCsused v).security = s.security := rfl
@[simp] theorem State.setCsused_checksum : (s.setCsused v).checksum = s.checksum := rfl
@[simp] theorem State.setCsused_upgrade : (s.setCsused v).upgrade = s.upgrade := rfl
@[simp] theorem State.setCsused_extra : (s.setCsused v).extra = s.extra := rfl
@[simp] theorem State.setCsused_packed : (s.setCsused v).packed = s.packed := rfl
@[simp] theorem State.setCsused_csused : (s.setCsused v).csused = v := rfl
@[simp] theorem State.setCsused_crcout : (s.setCsused v).crcout = s.crcout := rfl
@[simp] theorem State.setCsused_status : (s.setCsused v).status = s.status := rfl
@[simp] theorem State.setCsused_textlen : (s.setCsused v).textlen = s.textlen := rfl
@[simp] theorem State.setCsused_text : (s.setCsused v).text = s.text := rfl
@[simp] theorem State.setCsused_pending : (s.setCsused v).pending = s.pending := rfl
@[simp] theorem State.setCsused_observed : (s.setCsused v).observed = s.observed := rfl
end setCsused

section setCrcout
variable (v : Word)
@[simp] theorem State.setCrcout_group : (s.setCrcout v).group = s.group := rfl
@[simp] theorem State.setCrcout_serial : (s.setCrcout v).serial = s.serial := rfl
@[simp] theorem State.setCrcout_security : (s.setCrcout v).security = s.security := rfl
@[simp] theorem State.setCrcout_checksum : (s.setCrcout v).checksum = s.checksum := rfl
@[simp] theorem State.setCrcout_upgrade : (s.setCrcout v).upgrade = s.upgrade := rfl
@[simp] theorem State.setCrcout_extra : (s.setCrcout v).extra = s.extra := rfl
@[simp] theorem State.setCrcout_packed : (s.setCrcout v).packed = s.packed := rfl
@[simp] theorem State.setCrcout_csused : (s.setCrcout v).csused = s.csused := rfl
@[simp] theorem State.setCrcout_crcout : (s.setCrcout v).crcout = v := rfl
@[simp] theorem State.setCrcout_status : (s.setCrcout v).status = s.status := rfl
@[simp] theorem State.setCrcout_textlen : (s.setCrcout v).textlen = s.textlen := rfl
@[simp] theorem State.setCrcout_text : (s.setCrcout v).text = s.text := rfl
@[simp] theorem State.setCrcout_pending : (s.setCrcout v).pending = s.pending := rfl
@[simp] theorem State.setCrcout_observed : (s.setCrcout v).observed = s.observed := rfl
end setCrcout

section setStatus
variable (v : Word)
@[simp] theorem State.setStatus_group : (s.setStatus v).group = s.group := rfl
@[simp] theorem State.setStatus_serial : (s.setStatus v).serial = s.serial := rfl
@[simp] theorem State.setStatus_security : (s.setStatus v).security = s.security := rfl
@[simp] theorem State.setStatus_checksum : (s.setStatus v).checksum = s.checksum := rfl
@[simp] theorem State.setStatus_upgrade : (s.setStatus v).upgrade = s.upgrade := rfl
@[simp] theorem State.setStatus_extra : (s.setStatus v).extra = s.extra := rfl
@[simp] theorem State.setStatus_packed : (s.setStatus v).packed = s.packed := rfl
@[simp] theorem State.setStatus_csused : (s.setStatus v).csused = s.csused := rfl
@[simp] theorem State.setStatus_crcout : (s.setStatus v).crcout = s.crcout := rfl
@[simp] theorem State.setStatus_status : (s.setStatus v).status = v := rfl
@[simp] theorem State.setStatus_textlen : (s.setStatus v).textlen = s.textlen := rfl
@[simp] theorem State.setStatus_text : (s.setStatus v).text = s.text := rfl
@[simp] theorem State.setStatus_pending : (s.setStatus v).pending = s.pending := rfl
@[simp] theorem State.setStatus_observed : (s.setStatus v).observed = s.observed := rfl
end setStatus

section setTextlen
variable (v : Word)
@[simp] theorem State.setTextlen_group : (s.setTextlen v).group = s.group := rfl
@[simp] theorem State.setTextlen_serial : (s.setTextlen v).serial = s.serial := rfl
@[simp] theorem State.setTextlen_security : (s.setTextlen v).security = s.security := rfl
@[simp] theorem State.setTextlen_checksum : (s.setTextlen v).checksum = s.checksum := rfl
@[simp] theorem State.setTextlen_upgrade : (s.setTextlen v).upgrade = s.upgrade := rfl
@[simp] theorem State.setTextlen_extra : (s.setTextlen v).extra = s.extra := rfl
@[simp] theorem State.setTextlen_packed : (s.setTextlen v).packed = s.packed := rfl
@[simp] theorem State.setTextlen_csused : (s.setTextlen v).csused = s.csused := rfl
@[simp] theorem State.setTextlen_crcout : (s.setTextlen v).crcout = s.crcout := rfl
@[simp] theorem State.setTextlen_status : (s.setTextlen v).status = s.status := rfl
@[simp] theorem State.setTextlen_textlen : (s.setTextlen v).textlen = v := rfl
@[simp] theorem State.setTextlen_text : (s.setTextlen v).text = s.text := rfl
@[simp] theorem State.setTextlen_pending : (s.setTextlen v).pending = s.pending := rfl
@[simp] theorem State.setTextlen_observed : (s.setTextlen v).observed = s.observed := rfl
end setTextlen

section setText
variable (t : Vector Byte 32)
@[simp] theorem State.setText_group : (s.setText t).group = s.group := rfl
@[simp] theorem State.setText_serial : (s.setText t).serial = s.serial := rfl
@[simp] theorem State.setText_security : (s.setText t).security = s.security := rfl
@[simp] theorem State.setText_checksum : (s.setText t).checksum = s.checksum := rfl
@[simp] theorem State.setText_upgrade : (s.setText t).upgrade = s.upgrade := rfl
@[simp] theorem State.setText_extra : (s.setText t).extra = s.extra := rfl
@[simp] theorem State.setText_packed : (s.setText t).packed = s.packed := rfl
@[simp] theorem State.setText_csused : (s.setText t).csused = s.csused := rfl
@[simp] theorem State.setText_crcout : (s.setText t).crcout = s.crcout := rfl
@[simp] theorem State.setText_status : (s.setText t).status = s.status := rfl
@[simp] theorem State.setText_textlen : (s.setText t).textlen = s.textlen := rfl
@[simp] theorem State.setText_text : (s.setText t).text = t := rfl
@[simp] theorem State.setText_pending : (s.setText t).pending = s.pending := rfl
@[simp] theorem State.setText_observed : (s.setText t).observed = s.observed := rfl
end setText

section setTextByte
variable (i : Fin 32) (c : Byte)
@[simp] theorem State.setTextByte_group : (s.setTextByte i c).group = s.group := rfl
@[simp] theorem State.setTextByte_serial : (s.setTextByte i c).serial = s.serial := rfl
@[simp] theorem State.setTextByte_security : (s.setTextByte i c).security = s.security := rfl
@[simp] theorem State.setTextByte_checksum : (s.setTextByte i c).checksum = s.checksum := rfl
@[simp] theorem State.setTextByte_upgrade : (s.setTextByte i c).upgrade = s.upgrade := rfl
@[simp] theorem State.setTextByte_extra : (s.setTextByte i c).extra = s.extra := rfl
@[simp] theorem State.setTextByte_packed : (s.setTextByte i c).packed = s.packed := rfl
@[simp] theorem State.setTextByte_csused : (s.setTextByte i c).csused = s.csused := rfl
@[simp] theorem State.setTextByte_crcout : (s.setTextByte i c).crcout = s.crcout := rfl
@[simp] theorem State.setTextByte_status : (s.setTextByte i c).status = s.status := rfl
@[simp] theorem State.setTextByte_textlen : (s.setTextByte i c).textlen = s.textlen := rfl
@[simp] theorem State.setTextByte_text : (s.setTextByte i c).text = s.text.set i c := rfl
@[simp] theorem State.setTextByte_pending : (s.setTextByte i c).pending = s.pending := rfl
@[simp] theorem State.setTextByte_observed : (s.setTextByte i c).observed = s.observed := rfl
end setTextByte

section setPending
variable (es : List HostEvent)
@[simp] theorem State.setPending_group : (s.setPending es).group = s.group := rfl
@[simp] theorem State.setPending_serial : (s.setPending es).serial = s.serial := rfl
@[simp] theorem State.setPending_security : (s.setPending es).security = s.security := rfl
@[simp] theorem State.setPending_checksum : (s.setPending es).checksum = s.checksum := rfl
@[simp] theorem State.setPending_upgrade : (s.setPending es).upgrade = s.upgrade := rfl
@[simp] theorem State.setPending_extra : (s.setPending es).extra = s.extra := rfl
@[simp] theorem State.setPending_packed : (s.setPending es).packed = s.packed := rfl
@[simp] theorem State.setPending_csused : (s.setPending es).csused = s.csused := rfl
@[simp] theorem State.setPending_crcout : (s.setPending es).crcout = s.crcout := rfl
@[simp] theorem State.setPending_status : (s.setPending es).status = s.status := rfl
@[simp] theorem State.setPending_textlen : (s.setPending es).textlen = s.textlen := rfl
@[simp] theorem State.setPending_text : (s.setPending es).text = s.text := rfl
@[simp] theorem State.setPending_pending : (s.setPending es).pending = es := rfl
@[simp] theorem State.setPending_observed : (s.setPending es).observed = s.observed := rfl
end setPending

section observe
variable (v : ReadValue)
@[simp] theorem State.observe_group : (s.observe v).group = s.group := rfl
@[simp] theorem State.observe_serial : (s.observe v).serial = s.serial := rfl
@[simp] theorem State.observe_security : (s.observe v).security = s.security := rfl
@[simp] theorem State.observe_checksum : (s.observe v).checksum = s.checksum := rfl
@[simp] theorem State.observe_upgrade : (s.observe v).upgrade = s.upgrade := rfl
@[simp] theorem State.observe_extra : (s.observe v).extra = s.extra := rfl
@[simp] theorem State.observe_packed : (s.observe v).packed = s.packed := rfl
@[simp] theorem State.observe_csused : (s.observe v).csused = s.csused := rfl
@[simp] theorem State.observe_crcout : (s.observe v).crcout = s.crcout := rfl
@[simp] theorem State.observe_status : (s.observe v).status = s.status := rfl
@[simp] theorem State.observe_textlen : (s.observe v).textlen = s.textlen := rfl
@[simp] theorem State.observe_text : (s.observe v).text = s.text := rfl
@[simp] theorem State.observe_pending : (s.observe v).pending = s.pending := rfl
@[simp] theorem State.observe_observed : (s.observe v).observed = s.observed ++ [v] := rfl
end observe

section setFieldSet
variable (f : FieldSet)
@[simp] theorem State.setFieldSet_group : (s.setFieldSet f).group = BitVec.ofNat 64 f.group := rfl
@[simp] theorem State.setFieldSet_serial : (s.setFieldSet f).serial = BitVec.ofNat 64 f.serial := rfl
@[simp] theorem State.setFieldSet_security : (s.setFieldSet f).security = BitVec.ofNat 64 f.security := rfl
@[simp] theorem State.setFieldSet_checksum : (s.setFieldSet f).checksum = BitVec.ofNat 64 f.checksum := rfl
@[simp] theorem State.setFieldSet_upgrade : (s.setFieldSet f).upgrade = BitVec.ofNat 64 f.upgrade := rfl
@[simp] theorem State.setFieldSet_extra : (s.setFieldSet f).extra = BitVec.ofNat 64 f.extra := rfl
@[simp] theorem State.setFieldSet_packed : (s.setFieldSet f).packed = s.packed := rfl
@[simp] theorem State.setFieldSet_csused : (s.setFieldSet f).csused = s.csused := rfl
@[simp] theorem State.setFieldSet_crcout : (s.setFieldSet f).crcout = s.crcout := rfl
@[simp] theorem State.setFieldSet_status : (s.setFieldSet f).status = s.status := rfl
@[simp] theorem State.setFieldSet_textlen : (s.setFieldSet f).textlen = s.textlen := rfl
@[simp] theorem State.setFieldSet_text : (s.setFieldSet f).text = s.text := rfl
@[simp] theorem State.setFieldSet_pending : (s.setFieldSet f).pending = s.pending := rfl
@[simp] theorem State.setFieldSet_observed : (s.setFieldSet f).observed = s.observed := rfl
end setFieldSet

section setPackedNat
variable (n : Nat)
@[simp] theorem State.setPackedNat_group : (s.setPackedNat n).group = s.group := rfl
@[simp] theorem State.setPackedNat_serial : (s.setPackedNat n).serial = s.serial := rfl
@[simp] theorem State.setPackedNat_security : (s.setPackedNat n).security = s.security := rfl
@[simp] theorem State.setPackedNat_checksum : (s.setPackedNat n).checksum = s.checksum := rfl
@[simp] theorem State.setPackedNat_upgrade : (s.setPackedNat n).upgrade = s.upgrade := rfl
@[simp] theorem State.setPackedNat_extra : (s.setPackedNat n).extra = s.extra := rfl
@[simp] theorem State.setPackedNat_packed : (s.setPackedNat n).packed = BitVec.ofNat 128 n := rfl
@[simp] theorem State.setPackedNat_csused : (s.setPackedNat n).csused = s.csused := rfl
@[simp] theorem State.setPackedNat_crcout : (s.setPackedNat n).crcout = s.crcout := rfl
@[simp] theorem State.setPackedNat_status : (s.setPackedNat n).status = s.status := rfl
@[simp] theorem State.setPackedNat_textlen : (s.setPackedNat n).textlen = s.textlen := rfl
@[simp] theorem State.setPackedNat_text : (s.setPackedNat n).text = s.text := rfl
@[simp] theorem State.setPackedNat_pending : (s.setPackedNat n).pending = s.pending := rfl
@[simp] theorem State.setPackedNat_observed : (s.setPackedNat n).observed = s.observed := rfl
end setPackedNat

section setPackResult
variable (r : Nat × Nat)
@[simp] theorem State.setPackResult_group : (s.setPackResult r).group = s.group := rfl
@[simp] theorem State.setPackResult_serial : (s.setPackResult r).serial = s.serial := rfl
@[simp] theorem State.setPackResult_security : (s.setPackResult r).security = s.security := rfl
@[simp] theorem State.setPackResult_checksum : (s.setPackResult r).checksum = s.checksum := rfl
@[simp] theorem State.setPackResult_upgrade : (s.setPackResult r).upgrade = s.upgrade := rfl
@[simp] theorem State.setPackResult_extra : (s.setPackResult r).extra = s.extra := rfl
@[simp] theorem State.setPackResult_packed : (s.setPackResult r).packed = BitVec.ofNat 128 r.1 := rfl
@[simp] theorem State.setPackResult_csused : (s.setPackResult r).csused = BitVec.ofNat 64 r.2 := rfl
@[simp] theorem State.setPackResult_crcout : (s.setPackResult r).crcout = s.crcout := rfl
@[simp] theorem State.setPackResult_status : (s.setPackResult r).status = s.status := rfl
@[simp] theorem State.setPackResult_textlen : (s.setPackResult r).textlen = s.textlen := rfl
@[simp] theorem State.setPackResult_text : (s.setPackResult r).text = s.text := rfl
@[simp] theorem State.setPackResult_pending : (s.setPackResult r).pending = s.pending := rfl
@[simp] theorem State.setPackResult_observed : (s.setPackResult r).observed = s.observed := rfl
end setPackResult

section setKeyText
variable (t : List Byte)
@[simp] theorem State.setKeyText_group : (s.setKeyText t).group = s.group := by simp only [State.setKeyText, State.setTextlen_group, State.setText_group]
@[simp] theorem State.setKeyText_serial : (s.setKeyText t).serial = s.serial := by simp only [State.setKeyText, State.setTextlen_serial, State.setText_serial]
@[simp] theorem State.setKeyText_security : (s.setKeyText t).security = s.security := by simp only [State.setKeyText, State.setTextlen_security, State.setText_security]
@[simp] theorem State.setKeyText_checksum : (s.setKeyText t).checksum = s.checksum := by simp only [State.setKeyText, State.setTextlen_checksum, State.setText_checksum]
@[simp] theorem State.setKeyText_upgrade : (s.setKeyText t).upgrade = s.upgrade := by simp only [State.setKeyText, State.setTextlen_upgrade, State.setText_upgrade]
@[simp] theorem State.setKeyText_extra : (s.setKeyText t).extra = s.extra := by simp only [State.setKeyText, State.setTextlen_extra, State.setText_extra]
@[simp] theorem State.setKeyText_packed : (s.setKeyText t).packed = s.packed := by simp only [State.setKeyText, State.setTextlen_packed, State.setText_packed]
@[simp] theorem State.setKeyText_csused : (s.setKeyText t).csused = s.csused := by simp only [State.setKeyText, State.setTextlen_csused, State.setText_csused]
@[simp] theorem State.setKeyText_crcout : (s.setKeyText t).crcout = s.crcout := by simp only [State.setKeyText, State.setTextlen_crcout, State.setText_crcout]
@[simp] theorem State.setKeyText_status : (s.setKeyText t).status = s.status := by simp only [State.setKeyText, State.setTextlen_status, State.setText_status]
@[simp] theorem State.setKeyText_textlen : (s.setKeyText t).textlen = BitVec.ofNat 64 Config.keyLen := by simp only [State.setKeyText, State.setTextlen_textlen]
@[simp] theorem State.setKeyText_text : (s.setKeyText t).text = padText t := by simp only [State.setKeyText, State.setTextlen_text, State.setText_text]
@[simp] theorem State.setKeyText_pending : (s.setKeyText t).pending = s.pending := by simp only [State.setKeyText, State.setTextlen_pending, State.setText_pending]
@[simp] theorem State.setKeyText_observed : (s.setKeyText t).observed = s.observed := by simp only [State.setKeyText, State.setTextlen_observed, State.setText_observed]
end setKeyText

section raise
variable (e : CodecError)
@[simp] theorem State.raise_group : (s.raise e).group = s.group := rfl
@[simp] theorem State.raise_serial : (s.raise e).serial = s.serial := rfl
@[simp] theorem State.raise_security : (s.raise e).security = s.security := rfl
@[simp] theorem State.raise_checksum : (s.raise e).checksum = s.checksum := rfl
@[simp] theorem State.raise_upgrade : (s.raise e).upgrade = s.upgrade := rfl
@[simp] theorem State.raise_extra : (s.raise e).extra = s.extra := rfl
@[simp] theorem State.raise_packed : (s.raise e).packed = s.packed := rfl
@[simp] theorem State.raise_csused : (s.raise e).csused = s.csused := rfl
@[simp] theorem State.raise_crcout : (s.raise e).crcout = s.crcout := rfl
@[simp] theorem State.raise_status : (s.raise e).status = e.statusWord := rfl
@[simp] theorem State.raise_textlen : (s.raise e).textlen = s.textlen := rfl
@[simp] theorem State.raise_text : (s.raise e).text = s.text := rfl
@[simp] theorem State.raise_pending : (s.raise e).pending = s.pending := rfl
@[simp] theorem State.raise_observed : (s.raise e).observed = s.observed := rfl
end raise

end Sys2Proof.Machine
end

