-- ==== Sys2Proof/Laws/Ops.lean ====
section
/-! SUPPORT. What the shared operations can do: ending a command, raising an error, naming a port, loading and storing a
register, reading the input text. -/

namespace Sys2Proof.Machine

/-! ## Results -/

theorem nextState?_eq_some_iff {o : Result} {t : State} : nextState? o = some t ↔ o = .next t := by
  cases o <;> simp [nextState?]

theorem refusal?_eq_some_iff {o : Result} {r : Refusal} : refusal? o = some r ↔ o = .refused r := by
  cases o <;> simp [refusal?]

/-- Ending a command answers a next state: the error raised on the state before, or the writes with STATUS 0. -/
theorem finish_cases {s t : State} {r : Except CodecError State} (h : finish s r = .next t) :
    (∃ e, r = .error e ∧ t = s.raise e) ∨ ∃ u, r = .ok u ∧ t = u.setStatus statusOk := by
  cases r with
  | error e => exact .inl ⟨e, rfl, by simpa [finish] using h.symm⟩
  | ok u => exact .inr ⟨u, rfl, by simpa [finish] using h.symm⟩

theorem finish_error (s : State) (e : CodecError) : finish s (.error e) = .next (s.raise e) := rfl

theorem finish_ok (s u : State) : finish s (.ok u) = .next (u.setStatus statusOk) := rfl

theorem finish_answers (s : State) (r : Except CodecError State) : ∃ t, finish s r = .next t := by
  cases r <;> exact ⟨_, rfl⟩

/-! ## Status words -/

theorem statusWord_outOfBounds (f : Field) :
    (CodecError.outOfBounds f).statusWord = BitVec.ofNat 64 (1 + 256 * f.index) := by
  cases f <;> rfl

theorem statusWord_unencodable : CodecError.unencodable.statusWord = 0x0002#64 := rfl

theorem statusWord_malformedLength : CodecError.malformedLength.statusWord = 0x0004#64 := rfl

theorem statusWord_illegalCommand : CodecError.illegalCommand.statusWord = 0x0005#64 := rfl

theorem statusWord_invalidCharacter (c : Byte) :
    (CodecError.invalidCharacter c).statusWord = BitVec.ofNat 64 (3 + 256 * c.toNat) := by
  have h : ∀ c : Byte, (CodecError.invalidCharacter c).statusWord = BitVec.ofNat 64 (3 + 256 * c.toNat) := by
    decide +kernel
  exact h c

theorem Field.index_le_five (f : Field) : f.index ≤ 5 := by cases f <;> decide

theorem CodecError.info_le_255 (e : CodecError) : e.info ≤ 255 := by
  cases e with
  | outOfBounds f => exact le_trans f.index_le_five (by decide)
  | invalidCharacter c => exact Nat.le_of_lt_succ c.isLt
  | _ => exact Nat.zero_le _

/-- No error reports itself as a success. -/
theorem statusWord_ne_zero (e : CodecError) : e.statusWord ≠ 0#64 := by
  cases e with
  | outOfBounds f => cases f <;> decide
  | unencodable => decide
  | invalidCharacter c =>
    rw [statusWord_invalidCharacter]
    intro h
    have := congrArg BitVec.toNat h
    simp only [BitVec.toNat_ofNat] at this
    have := c.isLt
    omega
  | malformedLength => decide
  | illegalCommand => decide

/-! ## Ports -/

/-- A register stands at its own offset and at no other. -/
theorem regAt_eq_some_iff {off : Nat} {r : Reg} : regAt off = some r ↔ off = r.offset := by
  constructor
  · intro h
    unfold regAt at h
    split at h <;> simp at h <;> subst h <;> rfl
  · rintro rfl
    cases r with
    | field f => cases f <;> rfl
    | _ => rfl

theorem portAt_offset (r : Reg) : portAt r.offset 8 = some (.reg r) := by
  simp [portAt, regAt_eq_some_iff.mpr rfl]

theorem textAt_offset (i : Fin 32) : textAt (0x80 + i.val) = some i := by
  have := i.isLt
  simp only [textAt]
  rw [dif_pos (by omega)]
  simp

theorem portAt_text (i : Fin 32) : portAt (0x80 + i.val) 1 = some (.text i) := by
  simp [portAt, textAt_offset]

/-- A port is named exactly when the access is admitted (20_memory.md R36). -/
theorem portAt_isSome_eq_admitted (off n : Nat) : (portAt off n).isSome = admitted off n := by
  unfold portAt
  split
  · have hreg : (regAt off).isSome = wordOffsets.contains off := by
      unfold regAt
      split <;> simp_all [wordOffsets]
    simp [admitted, hreg]
  · by_cases h : 0x80 ≤ off ∧ off < 0xA0
    · simp [admitted, textAt, h]; omega
    · simp only [admitted, textAt, dif_neg h]
      simp; omega
  · rename_i h8 h1
    simp [admitted]
    exact ⟨fun h => absurd h h8, fun h => absurd h h1⟩

/-- Eight bytes name a register, one byte a `TEXT` entry. -/
theorem portAt_reg_size {off n : Nat} {r : Reg} (h : portAt off n = some (.reg r)) : n = 8 ∧ off = r.offset := by
  unfold portAt at h
  split at h
  · simp at h
    exact ⟨rfl, regAt_eq_some_iff.mp h⟩
  · simp at h
  · cases h

theorem portAt_text_size {off n : Nat} {i : Fin 32} (h : portAt off n = some (.text i)) : n = 1 ∧ off = 0x80 + i.val := by
  unfold portAt at h
  split at h
  · cases hr : regAt off <;> simp [hr] at h
  · refine ⟨rfl, ?_⟩
    cases ht : textAt off with
    | none => simp [ht] at h
    | some j =>
      simp only [ht, Option.map_some, Option.some.injEq, Port.text.injEq] at h
      subst h
      unfold textAt at ht
      split at ht
      · have := congrArg Fin.val (Option.some.inj ht)
        simp only at this
        omega
      · cases ht
  · cases h

/-! ## Loads and stores -/

/-- The low half of a joined word is its right part. -/
theorem packedLo_append (a b : Word) : (a ++ b).extractLsb' 0 64 = b := by
  apply BitVec.eq_of_getLsbD_eq
  intro i hi
  simp only [BitVec.getLsbD_extractLsb', BitVec.getLsbD_append, hi, Nat.zero_add, decide_true, Bool.true_and, if_true]

/-- The high half of a joined word is its left part. -/
theorem packedHi_append (a b : Word) : (a ++ b).extractLsb' 64 64 = a := by
  apply BitVec.eq_of_getLsbD_eq
  intro i hi
  simp only [BitVec.getLsbD_extractLsb', BitVec.getLsbD_append, hi, decide_true, Bool.true_and,
    show ¬ 64 + i < 64 by omega, if_false, Nat.add_sub_cancel_left]

/-- A joined word as a number. -/
theorem append_toNat (a b : Word) : (a ++ b).toNat = a.toNat * 2 ^ 64 + b.toNat := by
  rw [BitVec.toNat_append, Nat.shiftLeft_eq, Nat.mul_comm, ← Nat.two_pow_add_eq_or_of_lt b.isLt, Nat.mul_comm]

theorem State.packedLo_toNat (s : State) : s.packedLo.toNat = s.packed.toNat % 2 ^ 64 := by
  simp [State.packedLo]

theorem State.packedHi_toNat (s : State) : s.packedHi.toNat = s.packed.toNat / 2 ^ 64 := by
  have := s.packed.isLt
  simp [State.packedHi, Nat.shiftRight_eq_div_pow]
  omega

theorem State.loadReg_storeReg_self (s : State) {r : Reg} (v : Word) (h : r.writable = true) :
    (s.storeReg r v).loadReg r = v := by
  cases r with
  | field f => cases f <;> rfl
  | packedLo => exact packedLo_append s.packedHi v
  | packedHi => exact packedHi_append v s.packedLo
  | textlen => rfl
  | _ => simp [Reg.writable] at h

theorem State.loadReg_storeReg_of_ne (s : State) {r r' : Reg} (v : Word) (h : r' ≠ r) :
    (s.storeReg r v).loadReg r' = s.loadReg r' := by
  cases r with
  | field f =>
    cases r' with
    | field g => cases f <;> cases g <;> first | rfl | exact absurd rfl h
    | _ => cases f <;> rfl
  | packedLo =>
    cases r' with
    | packedLo => exact absurd rfl h
    | packedHi => exact packedHi_append s.packedHi v
    | field f => cases f <;> rfl
    | _ => rfl
  | packedHi =>
    cases r' with
    | packedHi => exact absurd rfl h
    | packedLo => exact packedLo_append v s.packedLo
    | field f => cases f <;> rfl
    | _ => rfl
  | textlen =>
    cases r' with
    | textlen => exact absurd rfl h
    | field f => cases f <;> rfl
    | _ => rfl
  | _ => rfl

theorem State.storeReg_status (s : State) (r : Reg) (v : Word) : (s.storeReg r v).status = s.status := by
  cases r with
  | field f => cases f <;> rfl
  | _ => rfl

theorem State.storeReg_csused (s : State) (r : Reg) (v : Word) : (s.storeReg r v).csused = s.csused := by
  cases r with
  | field f => cases f <;> rfl
  | _ => rfl

theorem State.storeReg_crcout (s : State) (r : Reg) (v : Word) : (s.storeReg r v).crcout = s.crcout := by
  cases r with
  | field f => cases f <;> rfl
  | _ => rfl

theorem State.storeReg_pending (s : State) (r : Reg) (v : Word) : (s.storeReg r v).pending = s.pending := by
  cases r with
  | field f => cases f <;> rfl
  | _ => rfl

theorem State.storeReg_observed (s : State) (r : Reg) (v : Word) : (s.storeReg r v).observed = s.observed := by
  cases r with
  | field f => cases f <;> rfl
  | _ => rfl

theorem State.storeReg_text (s : State) (r : Reg) (v : Word) : (s.storeReg r v).text = s.text := by
  cases r with
  | field f => cases f <;> rfl
  | _ => rfl

/-! ## Byte order and text -/

theorem le16_length (v : PackedWord) : (le16 v).length = 16 := by simp [le16, Config.crcBytes]

theorem le16_get (v : PackedWord) {i : Nat} (h : i < 16) :
    (le16 v)[i]? = some (BitVec.ofNat 8 (v.toNat / 2 ^ (8 * i))) := by
  simp only [le16, Config.crcBytes, List.getElem?_map, List.getElem?_range h, Option.map_some]
  simp [BitVec.extractLsb', Nat.shiftRight_eq_div_pow]

theorem padText_get (t : List Byte) (k : Fin 32) : (padText t)[k] = t.getD k.val 0#8 := by
  simp [padText]

/-- The input text, or `MalformedLength` for a `TEXTLEN` over the buffer (42_text_transform.md R96). -/
theorem State.inputText_eq (s : State) :
    s.inputText = if 32 < s.textlen.toNat then .error .malformedLength else .ok (s.text.toList.take s.textlen.toNat) := rfl

end Sys2Proof.Machine
end

