-- ==== Sys2Proof/Laws/Checksum.lean ====
section
/-! SUPPORT. The CRC's bit step is linear over XOR; the CRC command's result is a 10-bit value. -/

namespace Sys2Proof.Machine

/-- The bit step is linear: it is the shift, XORed with a multiple of the polynomial. -/
theorem crcBit_xor (x y : CrcWord) : crcBit (x ^^^ y) = crcBit x ^^^ crcBit y := by
  unfold crcBit
  rw [BitVec.msb_xor, BitVec.shiftLeft_xor_distrib]
  cases x.msb <;> cases y.msb
  · simp
  · simp [BitVec.xor_assoc]
  · simp only [Bool.xor_false, if_true, if_false, Bool.false_eq_true]
    rw [BitVec.xor_assoc, BitVec.xor_comm (y <<< 1), ← BitVec.xor_assoc]
  · simp only [bne_self_eq_false, if_true, if_false, Bool.false_eq_true]
    rw [BitVec.xor_assoc (x <<< 1), BitVec.xor_comm (y <<< 1), ← BitVec.xor_assoc Config.crcPoly, BitVec.xor_self,
      BitVec.zero_xor]

/-- The bit step in the numbers of 41_checksum_unit.md R78. -/
theorem crcBit_toNat (x : CrcWord) :
    (crcBit x).toNat = if 2 ^ 31 ≤ x.toNat then (2 * x.toNat % 2 ^ 32) ^^^ 0x04C11DB7 else 2 * x.toNat % 2 ^ 32 := by
  have hshift : (x <<< 1).toNat = 2 * x.toNat % 2 ^ 32 := by
    rw [BitVec.toNat_shiftLeft, Nat.shiftLeft_eq, Nat.pow_one, Nat.mul_comm]
  unfold crcBit
  rw [BitVec.msb_eq_decide]
  by_cases h : 2 ^ 31 ≤ x.toNat
  · rw [if_pos (by simpa using h), if_pos h, BitVec.toNat_xor, hshift]
    rfl
  · rw [if_neg (by simpa using h), if_neg h, hshift]

theorem crcBits_xor (k : Nat) (x y : CrcWord) : crcBits k (x ^^^ y) = crcBits k x ^^^ crcBits k y := by
  induction k generalizing x y with
  | zero => rfl
  | succ k ih => rw [crcBits, crcBits, crcBits, crcBit_xor, ih]

/-- The byte step in terms of the table: the register's own eight shifts, and the table entry of the byte. -/
theorem crcByte_xor (reg : CrcWord) (b : Byte) : crcByte reg b = crcBits 8 reg ^^^ crcTable b := by
  simp [crcByte, crcTable, crcBits_xor]

theorem crc10_toNat (v : PackedWord) : (crc10 v).toNat = (2 ^ 32 - 1 - (crcReg v).toNat) % 2 ^ 10 := by
  unfold crc10
  rw [BitVec.toNat_setWidth, BitVec.toNat_and, BitVec.toNat_not]
  rw [show (0x3FF#32).toNat = 2 ^ 10 - 1 from rfl, Nat.and_two_pow_sub_one_eq_mod, Nat.mod_mod]

theorem crc10_lt (v : PackedWord) : (crc10 v).toNat < 1024 := (crc10 v).isLt

theorem execCrc_eq (s : State) :
    execCrc s = .next ((s.setCrcout ((crc10 s.packed).setWidth 64)).setStatus statusOk) := rfl

end Sys2Proof.Machine
end

