-- ==== Sys2Proof/Laws/Packer.lean ====
section
/-! SUPPORT. Pack and Unpack: when the bounds hold, what the ORs and shifts are as sums, what Pack can answer. -/

namespace Sys2Proof.Machine

/-- The bounds of 40_field_packer.md R62 on a field set. -/
structure FieldSet.InBounds (f : FieldSet) : Prop where
  group : f.group ≤ 0xFFFFF
  serial : f.serial ≤ 0x3FFFFFFF
  security : f.security ≤ 0x1FFFFFFFFFFFFF
  checksum_pos : 1 ≤ f.checksum
  checksum : f.checksum ≤ 1024
  upgrade : f.upgrade ≤ 1
  extra : f.extra ≤ 1

theorem firstOutOfBounds_eq_none_iff (f : FieldSet) : firstOutOfBounds f = none ↔ f.InBounds := by
  unfold firstOutOfBounds
  constructor
  · intro h
    split at h
    · cases h
    split at h
    · cases h
    split at h
    · cases h
    split at h
    · cases h
    split at h
    · cases h
    split at h
    · cases h
    constructor <;> omega
  · rintro ⟨h1, h2, h3, h4, h5, h6, h7⟩
    rw [if_neg (by omega), if_neg (by omega), if_neg (by omega), if_neg (by omega), if_neg (by omega), if_neg (by omega)]

/-- OR with a shifted value above the bits of the other is a sum (40_field_packer.md R65). -/
theorem or_shiftLeft_eq_add {a k : Nat} (h : a < 2 ^ k) (b : Nat) : a ||| (b <<< k) = a + b * 2 ^ k := by
  rw [Nat.shiftLeft_eq, Nat.or_comm, Nat.mul_comm, ← Nat.two_pow_add_eq_or_of_lt h, Nat.add_comm]

/-- The partial integer as a sum (40_field_packer.md R65). -/
theorem partialPack_eq_sum {f : FieldSet} (h : f.InBounds) :
    partialPack f =
      f.group + f.serial * 2 ^ 20 + f.security * 2 ^ 50 + f.upgrade * 2 ^ 113 + f.extra * 2 ^ 114 := by
  obtain ⟨h1, h2, h3, -, -, h6, -⟩ := h
  unfold partialPack
  rw [or_shiftLeft_eq_add (a := f.group) (k := 20) (by omega), or_shiftLeft_eq_add (k := 50) (by omega),
    or_shiftLeft_eq_add (k := 113) (by omega), or_shiftLeft_eq_add (k := 114) (by omega)]

/-- The checksum used fits ten bits (40_field_packer.md R64). -/
theorem checksumUsed_lt {f : FieldSet} (h : f.InBounds) : checksumUsed f < 1024 := by
  unfold checksumUsed
  split
  · exact crc10_lt _
  · rename_i hc
    have := h.checksum
    simp only [Config.ckAuto] at hc
    omega

/-- The packed integer as a sum (40_field_packer.md R66). -/
theorem finalPack_eq_sum {f : FieldSet} (h : f.InBounds) :
    finalPack f = partialPack f + checksumUsed f * 2 ^ 103 := by
  have hu := checksumUsed_lt h
  rw [partialPack_eq_sum h]
  obtain ⟨h1, h2, h3, -, -, h6, -⟩ := h
  unfold finalPack partialPack
  generalize checksumUsed f = u at hu ⊢
  rw [Nat.or_right_comm, Nat.or_right_comm (f.group ||| f.serial <<< 20 ||| f.security <<< 50)]
  rw [or_shiftLeft_eq_add (a := f.group) (k := 20) (by omega), or_shiftLeft_eq_add (k := 50) (by omega),
    or_shiftLeft_eq_add (k := 103) (by omega), or_shiftLeft_eq_add (k := 113) (by omega),
    or_shiftLeft_eq_add (k := 114) (by omega)]
  omega

/-- What Pack can answer: the field out of bounds, `Unencodable`, or the packed integer and the checksum used. -/
theorem packFields_cases (f : FieldSet) :
    (∃ g, firstOutOfBounds f = some g ∧ packFields f = .error (.outOfBounds g)) ∨
    (f.InBounds ∧ f.extra ≠ 0 ∧ finalPack f > Config.limit ∧ packFields f = .error .unencodable) ∨
    (f.InBounds ∧ (f.extra = 0 ∨ finalPack f ≤ Config.limit) ∧ packFields f = .ok (finalPack f, checksumUsed f)) := by
  unfold packFields
  cases hb : firstOutOfBounds f with
  | some g => exact .inl ⟨g, rfl, rfl⟩
  | none =>
    have hin := (firstOutOfBounds_eq_none_iff f).mp hb
    by_cases hl : f.extra ≠ 0 ∧ finalPack f > Config.limit
    · exact .inr (.inl ⟨hin, hl.1, hl.2, if_pos hl⟩)
    · exact .inr (.inr ⟨hin, by omega, if_neg hl⟩)

theorem limit_eq : Config.limit = 24 ^ 25 := by decide +kernel

/-- What Pack answers is at most `LIMIT`, so that Encode never refuses it (43_key_commands.md R105). -/
theorem packFields_le_limit {f : FieldSet} {r : Nat × Nat} (h : packFields f = .ok r) : r.1 ≤ Config.limit := by
  obtain ⟨g, -, he⟩ | ⟨-, -, -, he⟩ | ⟨hin, hl, he⟩ := packFields_cases f
  · rw [he] at h; cases h
  · rw [he] at h; cases h
  · rw [he] at h
    cases h
    rcases hl with hx | hl
    · have hu := checksumUsed_lt hin
      rw [finalPack_eq_sum hin, partialPack_eq_sum hin, limit_eq]
      obtain ⟨h1, h2, h3, -, -, h6, -⟩ := hin
      simp only [hx]
      omega
    · exact hl

/-- Mask and shift as quotient and remainder (40_field_packer.md R70). -/
theorem unpackFields_eq (n : Nat) :
    unpackFields n =
      ⟨n % 2 ^ 20, n / 2 ^ 20 % 2 ^ 30, n / 2 ^ 50 % 2 ^ 53, n / 2 ^ 103 % 2 ^ 10, n / 2 ^ 113 % 2, n / 2 ^ 114 % 2⟩ := by
  have m20 : ∀ x, x &&& 0xFFFFF = x % 2 ^ 20 := fun x => Nat.and_two_pow_sub_one_eq_mod x 20
  have m30 : ∀ x, x &&& 0x3FFFFFFF = x % 2 ^ 30 := fun x => Nat.and_two_pow_sub_one_eq_mod x 30
  have m53 : ∀ x, x &&& 0x1FFFFFFFFFFFFF = x % 2 ^ 53 := fun x => Nat.and_two_pow_sub_one_eq_mod x 53
  have m10 : ∀ x, x &&& 0x3FF = x % 2 ^ 10 := fun x => Nat.and_two_pow_sub_one_eq_mod x 10
  have m1 : ∀ x, x &&& 1 = x % 2 := Nat.and_one_is_mod
  simp only [unpackFields, m20, m30, m53, m10, m1, Nat.shiftRight_eq_div_pow, Nat.pow_zero, Nat.div_one]

theorem execUnpack_eq (s : State) :
    execUnpack s = .next ((s.setFieldSet (unpackFields s.packedNat)).setStatus statusOk) := rfl

end Sys2Proof.Machine
end

