-- ==== Sys2Proof/Laws/TextTransform.lean ====
section
/-! SUPPORT. Encode and Decode step by step: the digits, the symbols and their indices, the marker, the dashes, Horner. -/

namespace Sys2Proof.Machine

/-! ## Digits -/

theorem expandDigits_length (k n : Nat) : (expandDigits k n).length = k + 1 := by
  induction k generalizing n with
  | zero => rfl
  | succ k ih => rw [expandDigits, List.length_cons, ih]

theorem expandDigits_get (k n : Nat) {i : Nat} (h : i < k) : (expandDigits k n)[i]? = some (n / 24 ^ i % 24) := by
  induction k generalizing n i with
  | zero => omega
  | succ k ih =>
    cases i with
    | zero => simp [expandDigits, Config.radix]
    | succ i =>
      rw [expandDigits, List.getElem?_cons_succ, ih _ (by omega), Config.radix, Nat.div_div_eq_div_mul, Nat.pow_succ']

/-- The top digit is what is left, not reduced (42_text_transform.md R88). -/
theorem expandDigits_top (k n : Nat) : (expandDigits k n)[k]? = some (n / 24 ^ k) := by
  induction k generalizing n with
  | zero => simp [expandDigits]
  | succ k ih =>
    rw [expandDigits, List.getElem?_cons_succ, ih, Config.radix, Nat.div_div_eq_div_mul, Nat.pow_succ']

theorem topDigit_digits (n : Nat) : topDigit (digits n) = n / 24 ^ 24 := by
  rw [topDigit, digits, Config.bodyLen, List.getD_eq_getElem?_getD, expandDigits_top]
  rfl

/-! ## Horner -/

theorem horner_append (p : Nat) (xs ys : List Nat) : horner p (xs ++ ys) = horner (horner p xs) ys := by
  simp [horner]

/-- Horner over the digits, most significant first, gives the integer back (42_text_transform.md R99, R103). -/
theorem horner_expandDigits (k n : Nat) :
    horner (n / 24 ^ k) ((expandDigits k n).take k).reverse = n := by
  induction k generalizing n with
  | zero => simp [horner]
  | succ k ih =>
    rw [expandDigits, List.take_succ_cons, List.reverse_cons, horner_append]
    have h := ih (n / Config.radix)
    rw [Config.radix, Nat.div_div_eq_div_mul, ← Nat.pow_succ'] at h
    rw [Config.radix, h]
    simp only [horner, Config.radix, List.foldl_cons, List.foldl_nil]
    omega

/-- Horner from `p` over digits below 24 stays below `(p + 1) * 24^k` (42_text_transform.md R100). -/
theorem horner_lt (p : Nat) (vs : List Nat) (h : ∀ v ∈ vs, v < 24) : horner p vs < (p + 1) * 24 ^ vs.length := by
  induction vs generalizing p with
  | nil => simp [horner]
  | cons v vs ih =>
    have hv := h v (by simp)
    have := ih (p * 24 + v) fun x hx => h x (by simp [hx])
    calc horner p (v :: vs) = horner (p * 24 + v) vs := rfl
      _ < (p * 24 + v + 1) * 24 ^ vs.length := this
      _ ≤ ((p + 1) * 24) * 24 ^ vs.length := Nat.mul_le_mul_right _ (by omega)
      _ = (p + 1) * 24 ^ (v :: vs).length := by rw [List.length_cons, Nat.pow_succ', Nat.mul_assoc]

/-! ## Symbols -/

theorem symbolIndex_eq_none_iff {c : Byte} {a : List Byte} : symbolIndex c a = none ↔ c ∉ a := by
  induction a with
  | nil => simp [symbolIndex]
  | cons x xs ih =>
    by_cases hx : x = c
    · simp [symbolIndex, hx]
    · simp [symbolIndex, hx, ih, Ne.symm hx]

theorem symbolIndex_of_mem {c : Byte} {a : List Byte} (h : c ∈ a) : symbolIndex c a = some (a.idxOf c) := by
  induction a with
  | nil => simp at h
  | cons x xs ih =>
    by_cases hx : x = c
    · simp [symbolIndex, hx]
    · rw [symbolIndex, if_neg hx, ih (by simpa [Ne.symm hx] using h), List.idxOf_cons_ne _ hx]
      rfl

theorem symbolIndex_lt {c : Byte} {a : List Byte} {i : Nat} (h : symbolIndex c a = some i) : i < a.length := by
  have hm : c ∈ a := by
    by_contra hn
    rw [symbolIndex_eq_none_iff.mpr hn] at h
    cases h
  rw [symbolIndex_of_mem hm] at h
  cases h
  exact List.idxOf_lt_length_of_mem hm

theorem Alphabet.wf_iff {a : List Byte} :
    Alphabet.wf a = true ↔ a.length = 24 ∧ a.Nodup ∧ Config.marker ∉ a ∧ Config.dash ∉ a := by
  simp [Alphabet.wf, Config.radix, and_assoc]

theorem symbolAt_mem {a : List Byte} {i : Nat} (h : i < a.length) : symbolAt a i ∈ a := by
  simp [symbolAt, List.getD_eq_getElem?_getD, h]

/-- The alphabet's indices and symbols are inverse where it has no repeats (42_text_transform.md R86). -/
theorem symbolIndex_symbolAt {a : List Byte} (hd : a.Nodup) {i : Nat} (h : i < a.length) :
    symbolIndex (symbolAt a i) a = some i := by
  rw [symbolIndex_of_mem (symbolAt_mem h)]
  simp [symbolAt, List.getD_eq_getElem?_getD, h, hd.idxOf_getElem]

theorem mapIndices_map_symbolAt {a : List Byte} (hd : a.Nodup) (vs : List Nat) (h : ∀ v ∈ vs, v < a.length) :
    mapIndices a (vs.map (symbolAt a)) = .ok vs := by
  induction vs with
  | nil => rfl
  | cons v vs ih =>
    rw [List.map_cons, mapIndices, symbolIndex_symbolAt hd (h v (by simp)), ih fun x hx => h x (by simp [hx])]

/-- The indices of a text of symbols (42_text_transform.md R98). -/
theorem mapIndices_of_subset {a : List Byte} (t : List Byte) (h : ∀ c ∈ t, c ∈ a) :
    mapIndices a t = .ok (t.map a.idxOf) := by
  induction t with
  | nil => rfl
  | cons c t ih =>
    rw [mapIndices, symbolIndex_of_mem (h c (by simp)), ih fun x hx => h x (by simp [hx])]
    rfl

/-- The leftmost foreign character is the one reported (42_text_transform.md R98). -/
theorem mapIndices_append_foreign {a : List Byte} (before after : List Byte) (c : Byte) (h : ∀ x ∈ before, x ∈ a)
    (hc : c ∉ a) : mapIndices a (before ++ c :: after) = .error (.invalidCharacter c) := by
  induction before with
  | nil => rw [List.nil_append, mapIndices, symbolIndex_eq_none_iff.mpr hc]
  | cons x xs ih =>
    rw [List.cons_append, mapIndices, symbolIndex_of_mem (h x (by simp)), ih fun y hy => h y (by simp [hy])]

/-- What the mapping can answer: an index below the alphabet's length for each character, or a character of the text that is
foreign. -/
theorem mapIndices_cases (a t : List Byte) :
    (∃ vs, mapIndices a t = .ok vs ∧ vs.length = t.length ∧ ∀ v ∈ vs, v < a.length) ∨
    ∃ c ∈ t, c ∉ a ∧ mapIndices a t = .error (.invalidCharacter c) := by
  induction t with
  | nil => exact .inl ⟨[], rfl, rfl, by simp⟩
  | cons c t ih =>
    cases hi : symbolIndex c a with
    | none => exact .inr ⟨c, by simp, symbolIndex_eq_none_iff.mp hi, by rw [mapIndices, hi]⟩
    | some v =>
      obtain ⟨vs, hvs, hlen, hlt⟩ | ⟨x, hx, hxa, he⟩ := ih
      · refine .inl ⟨v :: vs, by rw [mapIndices, hi, hvs], by simp [hlen], ?_⟩
        intro w hw
        rcases List.mem_cons.mp hw with rfl | hw
        · exact symbolIndex_lt hi
        · exact hlt w hw
      · exact .inr ⟨x, by simp [hx], hxa, by rw [mapIndices, hi, he]⟩

/-! ## The body, the marker and the dashes -/

theorem renderBody_length (a : List Byte) (n : Nat) : (renderBody a (digits n)).length = 24 := by
  simp [renderBody, digits, expandDigits_length, Config.bodyLen]

/-- Every rendered digit is below 24 (42_text_transform.md R88), so only symbols are rendered. -/
theorem digits_take_lt (n : Nat) : ∀ d ∈ (digits n).take Config.bodyLen, d < 24 := by
  intro d hd
  obtain ⟨i, hi, rfl⟩ := List.mem_iff_getElem.mp hd
  have hi' : i < 24 := by simp [Config.bodyLen] at hi; omega
  have h := expandDigits_get 24 n hi'
  rw [List.getElem_take]
  have hl : i < (digits n).length := by rw [digits, expandDigits_length]; simp [Config.bodyLen]; omega
  have : (digits n)[i]? = some (n / 24 ^ i % 24) := h
  rw [List.getElem?_eq_getElem hl, Option.some.injEq] at this
  rw [this]
  exact Nat.mod_lt _ (by decide)

theorem renderBody_subset {a : List Byte} (ha : a.length = 24) (n : Nat) : ∀ c ∈ renderBody a (digits n), c ∈ a := by
  intro c hc
  obtain ⟨d, hd, rfl⟩ := List.mem_map.mp hc
  exact symbolAt_mem (by rw [ha]; exact digits_take_lt n d (List.mem_reverse.mp hd))

theorem insertMarker_length (p : Nat) (b : List Byte) : (insertMarker p b).length = b.length + 1 := by
  simp [insertMarker]; omega

/-- The marker stands where it was inserted (42_text_transform.md R90). -/
theorem markerPos_insertMarker {p : Nat} {b : List Byte} (hp : p ≤ b.length) (hm : Config.marker ∉ b) :
    markerPos (insertMarker p b) = p := by
  have h : Config.marker ∉ b.take p := fun h => hm (List.mem_of_mem_take h)
  rw [markerPos, insertMarker, List.append_assoc, List.idxOf_append_of_notMem h]
  simp [hp]

theorem removeAt_insertMarker {p : Nat} {b : List Byte} (hp : p ≤ b.length) : removeAt p (insertMarker p b) = b := by
  have hl : (b.take p).length = p := by simp [hp]
  unfold removeAt insertMarker
  rw [List.append_assoc, List.take_left' hl, List.singleton_append, ← List.drop_drop, List.drop_left' hl,
    List.drop_succ_cons, List.drop_zero, List.take_append_drop]

theorem count_marker_insertMarker {p : Nat} {b : List Byte} (hm : Config.marker ∉ b) :
    (insertMarker p b).count Config.marker = 1 := by
  have h1 : (b.take p).count Config.marker = 0 := List.count_eq_zero.mpr fun h => hm (List.mem_of_mem_take h)
  have h2 : (b.drop p).count Config.marker = 0 := List.count_eq_zero.mpr fun h => hm (List.mem_of_mem_drop h)
  simp [insertMarker, List.count_append, h1, h2]

theorem mem_insertMarker {p : Nat} {b : List Byte} {c : Byte} (h : c ∈ insertMarker p b) : c ∈ b ∨ c = Config.marker := by
  simp only [insertMarker, List.mem_append, List.mem_singleton] at h
  rcases h with (h | h) | h
  · exact .inl (List.mem_of_mem_take h)
  · exact .inr h
  · exact .inl (List.mem_of_mem_drop h)

theorem dashed_length {t : List Byte} (h : t.length = 25) : (dashed t).length = 29 := by
  simp [dashed, h]

theorem stripDashes_of_notMem {t : List Byte} (h : Config.dash ∉ t) : stripDashes t = t := by
  refine List.filter_eq_self.mpr fun c hc => ?_
  simp only [decide_eq_true_eq]
  rintro rfl
  exact h hc

/-- Stripping the dashes of a dashed content gives the content back (42_text_transform.md R103). -/
theorem stripDashes_dashed {t : List Byte} (hl : t.length = 25) (hd : Config.dash ∉ t) : stripDashes (dashed t) = t := by
  have hcut : ∀ k, stripDashes ((t.drop k).take 5) = (t.drop k).take 5 := fun k =>
    stripDashes_of_notMem fun h => hd (List.mem_of_mem_drop (List.mem_of_mem_take h))
  have h0 : stripDashes (t.take 5) = t.take 5 := by simpa using hcut 0
  have hs : stripDashes [Config.dash] = [] := by decide
  have hsplit : ∀ x y : List Byte, stripDashes (x ++ y) = stripDashes x ++ stripDashes y := fun x y => List.filter_append ..
  unfold dashed
  simp only [hsplit, hcut, h0, hs, List.append_nil]
  have h5 : (t.drop 20).take 5 = t.drop 20 := List.take_of_length_le (by simp [hl])
  rw [h5]
  have step : ∀ k, (t.drop k).take 5 ++ t.drop (k + 5) = t.drop k := fun k => by
    rw [← List.drop_drop, List.take_append_drop]
  rw [List.append_assoc, step 15, List.append_assoc, step 10, List.append_assoc, step 5, List.take_append_drop]

/-! ## What Encode and Decode can answer -/

/-- What Encode can answer (42_text_transform.md R92). -/
theorem encodeText_cases (a : List Byte) (n : Nat) :
    (n > Config.limit ∧ encodeText a n = .error .unencodable) ∨
    (n ≤ Config.limit ∧ encodeText a n = .ok (dashed (insertMarker (n / 24 ^ 24) (renderBody a (digits n))))) := by
  unfold encodeText
  by_cases h : n > Config.limit
  · exact .inl ⟨h, if_pos h⟩
  · exact .inr ⟨by omega, by rw [if_neg h, topDigit_digits]⟩

/-- A text of 25 characters with one marker passes step 1 of Decode (42_text_transform.md R96). -/
theorem decodeContent_of_wellShaped {t : List Byte} (a : List Byte) (hl : t.length = 25) (hm : t.count Config.marker = 1) :
    decodeContent a t = (mapIndices a (removeAt (markerPos t) t)).map (horner (markerPos t)) := by
  unfold decodeContent
  rw [if_neg (by simp [Config.contentLen, hl, hm])]

theorem decodeContent_malformed {t : List Byte} (a : List Byte) (h : t.length ≠ 25 ∨ t.count Config.marker ≠ 1) :
    decodeContent a t = .error .malformedLength := by
  unfold decodeContent
  rw [if_pos (by simpa [Config.contentLen] using h)]

theorem markerPos_lt {t : List Byte} (hm : t.count Config.marker = 1) : markerPos t < t.length :=
  List.idxOf_lt_length_of_mem (List.count_pos_iff.mp (by omega))

/-- The one marker removed, 24 characters are left in their order: the text without its marker (42_text_transform.md R97). -/
theorem removeAt_markerPos {t : List Byte} (hm : t.count Config.marker = 1) :
    removeAt (markerPos t) t = t.filter fun c => decide (c ≠ Config.marker) := by
  induction t with
  | nil => rfl
  | cons c t ih =>
    by_cases hc : c = Config.marker
    · subst hc
      have h0 : t.count Config.marker = 0 := by simpa using hm
      have hn : Config.marker ∉ t := List.count_eq_zero.mp h0
      have hf : (t.filter fun c => decide (c ≠ Config.marker)) = t := by
        refine List.filter_eq_self.mpr fun x hx => ?_
        simp only [decide_eq_true_eq]
        rintro rfl
        exact hn hx
      rw [markerPos, List.idxOf_cons_self, removeAt, List.filter_cons_of_neg (by simp), hf]
      simp
    · rw [List.count_cons_of_ne hc] at hm
      have h := ih hm
      rw [markerPos, List.idxOf_cons_ne _ hc, List.filter_cons_of_pos (by simpa using hc), ← h]
      rfl

end Sys2Proof.Machine
end

