-- ==== Sys2Proof/Laws/Commands.lean ====
section
/-! SUPPORT. One inversion lemma per command: if it answers a next state, then one of these cases holds. -/

namespace Sys2Proof.Machine

/-- Every command answers a next state: with its results, or with an error in STATUS. -/
theorem exec_answers (i : Instr) (s : State) : ∃ t, exec i s = .next t := by
  cases i with
  | unpack => exact ⟨_, execUnpack_eq s⟩
  | crc => exact ⟨_, execCrc_eq s⟩
  | pack => exact finish_answers s _
  | tenc => exact finish_answers s _
  | tdec => exact finish_answers s _
  | enckey => exact finish_answers s _
  | deckey => exact finish_answers s _

theorem execPack_cases {s t : State} (h : execPack s = .next t) :
    (∃ e, packFields s.fieldSet = .error e ∧ t = s.raise e) ∨
    ∃ r, packFields s.fieldSet = .ok r ∧ t = (s.setPackResult r).setStatus statusOk := by
  obtain ⟨e, he, rfl⟩ | ⟨u, hu, rfl⟩ := finish_cases h
  · cases hp : packFields s.fieldSet <;> simp [hp, Except.map] at he
    exact .inl ⟨_, rfl, by rw [he]⟩
  · cases hp : packFields s.fieldSet <;> simp [hp, Except.map] at hu
    exact .inr ⟨_, rfl, by rw [hu]⟩

theorem execTenc_cases {s t : State} (h : execTenc s = .next t) :
    (Config.limit < s.packedNat ∧ t = s.raise .unencodable) ∨
    ∃ k, s.packedNat ≤ Config.limit ∧ encodeText Config.alphabet s.packedNat = .ok k ∧
      t = (s.setKeyText k).setStatus statusOk := by
  unfold execTenc tencWith at h
  obtain ⟨hn, he⟩ | ⟨hn, he⟩ := encodeText_cases Config.alphabet s.packedNat
  · rw [he] at h
    exact .inl ⟨hn, by simpa [Except.map, finish] using h.symm⟩
  · rw [he] at h
    exact .inr ⟨_, hn, he, by simpa [Except.map, finish] using h.symm⟩

/-- What Decode can answer (42_text_transform.md R94): the malformed length, a character that belongs to no key, or Horner
over as many indices below the alphabet's length as there are characters beside the marker. -/
theorem decodeText_cases (a t : List Byte) :
    decodeText a t = .error .malformedLength ∨
    (∃ c ∈ t, c ∉ a ∧ c ≠ Config.marker ∧ c ≠ Config.dash ∧ decodeText a t = .error (.invalidCharacter c)) ∨
    ∃ p vs, p < 25 ∧ vs.length = 24 ∧ (∀ v ∈ vs, v < a.length) ∧ decodeText a t = .ok (horner p vs) := by
  by_cases hbad : (stripDashes t).length ≠ 25 ∨ (stripDashes t).count Config.marker ≠ 1
  · exact .inl (decodeContent_malformed a hbad)
  · have hl : (stripDashes t).length = 25 := by omega
    have hm : (stripDashes t).count Config.marker = 1 := by omega
    have hp := markerPos_lt hm
    have hd : decodeText a t = _ := decodeContent_of_wellShaped a hl hm
    rcases mapIndices_cases a (removeAt (markerPos (stripDashes t)) (stripDashes t)) with
      ⟨vs, hvs, hlen, hlt⟩ | ⟨c, hc, hca, he⟩
    · refine .inr (.inr ⟨markerPos (stripDashes t), vs, by omega, ?_, hlt, by rw [hd, hvs]; rfl⟩)
      rw [hlen]
      simp [removeAt]
      omega
    · refine .inr (.inl ⟨c, ?_⟩)
      rw [removeAt_markerPos hm, List.mem_filter, stripDashes, List.mem_filter] at hc
      exact ⟨hc.1.1, hca, by simpa using hc.2, by simpa using hc.1.2, by rw [hd, he]; rfl⟩

/-- What the input text of TDEC and DECKEY stands for (42_text_transform.md R102): the errors of Decode, or an integer. -/
theorem inputKey_eq (a : List Byte) (s : State) :
    s.inputKey a = if 32 < s.textlen.toNat then .error .malformedLength
      else decodeText a (s.text.toList.take s.textlen.toNat) := by
  unfold State.inputKey
  rw [State.inputText_eq]
  by_cases h : 32 < s.textlen.toNat
  · rw [if_pos h, if_pos h]
  · rw [if_neg h, if_neg h]

theorem execTdec_cases {s t : State} (h : execTdec s = .next t) :
    (∃ e, s.inputKey Config.alphabet = .error e ∧ t = s.raise e) ∨
    ∃ n, s.inputKey Config.alphabet = .ok n ∧ t = (s.setPackedNat n).setStatus statusOk := by
  obtain ⟨e, he, rfl⟩ | ⟨u, hu, rfl⟩ := finish_cases h
  · cases hp : s.inputKey Config.alphabet <;> simp [hp, Except.map] at he
    exact .inl ⟨_, rfl, by rw [he]⟩
  · cases hp : s.inputKey Config.alphabet <;> simp [hp, Except.map] at hu
    exact .inr ⟨_, rfl, by rw [hu]⟩

theorem execDeckey_cases {s t : State} (h : execDeckey s = .next t) :
    (∃ e, s.inputKey Config.alphabet = .error e ∧ t = s.raise e) ∨
    ∃ n, s.inputKey Config.alphabet = .ok n ∧
      t = ((s.setPackedNat n).setFieldSet (unpackFields n)).setStatus statusOk := by
  obtain ⟨e, he, rfl⟩ | ⟨u, hu, rfl⟩ := finish_cases h
  · cases hp : s.inputKey Config.alphabet <;> simp [hp, Except.map] at he
    exact .inl ⟨_, rfl, by rw [he]⟩
  · cases hp : s.inputKey Config.alphabet <;> simp [hp, Except.map] at hu
    exact .inr ⟨_, rfl, by rw [hu]⟩

/-- ENCKEY: Pack's error, or Pack's result and the key of it (43_key_commands.md R105: the Encode step cannot fail). -/
theorem execEnckey_cases {s t : State} (h : execEnckey s = .next t) :
    (∃ e, packFields s.fieldSet = .error e ∧ t = s.raise e) ∨
    ∃ r k, packFields s.fieldSet = .ok r ∧ encodeText Config.alphabet r.1 = .ok k ∧
      t = ((s.setPackResult r).setKeyText k).setStatus statusOk := by
  unfold execEnckey enckeyWith enckeyResult at h
  cases hp : packFields s.fieldSet with
  | error e =>
    rw [hp] at h
    exact .inl ⟨e, rfl, by simpa [finish] using h.symm⟩
  | ok r =>
    rw [hp] at h
    have hle := packFields_le_limit hp
    obtain ⟨hn, -⟩ | ⟨-, he⟩ := encodeText_cases Config.alphabet r.1
    · omega
    · simp only [he, Except.map, finish] at h
      exact .inr ⟨r, _, rfl, he, by simpa using h.symm⟩

end Sys2Proof.Machine
end

