-- ==== Sys2Proof/Laws/HostPort.lean ====
section
/-! SUPPORT. What a host event and a step can do. -/

namespace Sys2Proof.Machine

theorem step_nil {s : State} (h : s.pending = []) : step s = .next s := by
  simp [step, hostStep, h]

/-- A step serves the host's oldest event on the state from whose list it is taken. -/
theorem step_cons {s : State} {e : HostEvent} {rest : List HostEvent} (h : s.pending = e :: rest) :
    step s = serve e (s.setPending rest) := by
  simp [step, hostStep, h]

/-- A write of a register at its own offset. -/
theorem memWrite_reg (r : Reg) (v : Word) (s : State) : memWrite r.offset 8 v s = writeReg r v s := by
  unfold memWrite
  rw [portAt_offset]
  exact congrArg (fun x => writeReg r x s) (BitVec.setWidth_eq v)

theorem memWrite_text (i : Fin 32) (c : Byte) (s : State) : memWrite (0x80 + i.val) 1 c s = .next (s.setTextByte i c) := by
  unfold memWrite
  rw [portAt_text]
  exact congrArg (fun x => Host.Outcome.next (s.setTextByte i x)) (BitVec.setWidth_eq c)

theorem memRead_reg (r : Reg) (s : State) : memRead r.offset 8 s = .next (s.observe (.word (s.loadReg r))) := by
  unfold memRead
  rw [portAt_offset]
  rfl

theorem memRead_text (i : Fin 32) (s : State) : memRead (0x80 + i.val) 1 s = .next (s.observe (.byte s.text[i])) := by
  unfold memRead
  rw [portAt_text]
  rfl

theorem writeReg_of_ne_cmd {r : Reg} (h : r ≠ .cmd) (v : Word) (s : State) : writeReg r v s = .next (s.storeReg r v) :=
  if_neg h

theorem writeReg_cmd (v : Word) (s : State) : writeReg .cmd v s = issueCommand v s := rfl

theorem issueCommand_cases (w : Word) (s : State) :
    (∃ i, decode w = .ok i ∧ issueCommand w s = exec i s) ∨
    ∃ e, decode w = .error e ∧ issueCommand w s = .next (s.raise .illegalCommand) := by
  unfold issueCommand
  cases h : decode w with
  | ok i => exact .inl ⟨i, rfl, rfl⟩
  | error e => exact .inr ⟨e, rfl, rfl⟩

/-- Everything an event can do, where it answers a next state: a command runs or is illegal, a register or a `TEXT` entry is
stored, a value is read, or the block is reset. -/
theorem serve_cases {e : HostEvent} {s t : State} (h : serve e s = .next t) :
    (∃ i, exec i s = .next t) ∨ t = s.raise .illegalCommand ∨
    (∃ r v, r ≠ .cmd ∧ t = s.storeReg r v) ∨ (∃ i c, t = s.setTextByte i c) ∨ (∃ v, t = s.observe v) ∨
    t = s.resetBlock := by
  cases e with
  | reset => exact .inr (.inr (.inr (.inr (.inr (by simpa [serve] using h.symm)))))
  | otherHost a => simp [serve] at h
  | access a =>
    cases a with
    | load off n =>
      simp only [serve, memRead] at h
      split at h
      · cases h
      · exact .inr (.inr (.inr (.inr (.inl ⟨_, by simpa using h.symm⟩))))
    | write off n v =>
      simp only [serve, memWrite] at h
      split at h
      · cases h
      · rename_i r _
        by_cases hr : r = .cmd
        · subst hr
          rw [writeReg_cmd] at h
          obtain ⟨i, -, hi⟩ | ⟨e, -, hi⟩ := issueCommand_cases (v.setWidth 64) s
          · exact .inl ⟨i, by rw [← hi, h]⟩
          · rw [hi] at h
            exact .inr (.inl (by simpa using h.symm))
        · rw [writeReg_of_ne_cmd hr] at h
          exact .inr (.inr (.inl ⟨r, _, hr, by simpa using h.symm⟩))
      · exact .inr (.inr (.inr (.inl ⟨_, _, by simpa using h.symm⟩)))

end Sys2Proof.Machine
end

