-- ==== Sys2Proof/Laws/PerInstr.lean ====
section
/-! SUPPORT. Statements about every instruction as syntax, one lemma per constructor. -/

namespace Sys2Proof.Laws.EncodedWord

/-- The encoded word of a well-formed command decodes to it, and its bits 63:8 are zero (30_encoding.md R50, R52). -/
def Statement (i : Instr) : Prop := i.wf = true → decode (encode i) = .ok i ∧ zeroField (encode i) = 0#56

theorem pack : Statement .pack := fun _ => by decide

theorem unpack : Statement .unpack := fun _ => by decide

theorem crc : Statement .crc := fun _ => by decide

theorem tenc : Statement .tenc := fun _ => by decide

theorem tdec : Statement .tdec := fun _ => by decide

theorem enckey : Statement .enckey := fun _ => by decide

theorem deckey : Statement .deckey := fun _ => by decide

end Sys2Proof.Laws.EncodedWord
end

