-- ==== Sys2Proof/Tests/Slice0.lean ====
section
/-! SUPPORT. Own tests: well-formedness smoke tests, decoding of words written out from the spec, the vectors of
spec/95_test_vectors.md on each command, and a witness for every statement that has hypotheses. Expected values are the
spec's, never the model's answer. -/

-- One theorem after another: each waiting elaboration thread would hold a stack of its own.
set_option Elab.async false

namespace Sys2Proof.Tests.Slice0

open Sys2Proof.Machine Sys2Proof.SpecForm

/-! ## Helpers -/

/-- The reset state with the six field registers written. -/
def withFields (g s sec ck u x : Word) : State :=
  { State.reset with group := g, serial := s, security := sec, checksum := ck, upgrade := u, extra := x }

/-- The reset state with `PACKED` written. -/
def withPacked (v : PackedWord) : State := { State.reset with packed := v }

/-- The reset state with a text written into `TEXT` and its length into `TEXTLEN`. -/
def withText (t : List Byte) : State :=
  { State.reset with text := padText t, textlen := BitVec.ofNat 64 t.length }

/-- The characters of V-P1's key, 94KN8-4BDRG-7TMVD-YDMGR-Q9DYC. -/
def keyE2E : List Byte :=
  [0x39#8, 0x34#8, 0x4B#8, 0x4E#8, 0x38#8, 0x2D#8, 0x34#8, 0x42#8, 0x44#8, 0x52#8] ++
  [0x47#8, 0x2D#8, 0x37#8, 0x54#8, 0x4D#8, 0x56#8, 0x44#8, 0x2D#8, 0x59#8, 0x44#8] ++
  [0x4D#8, 0x47#8, 0x52#8, 0x2D#8, 0x51#8, 0x39#8, 0x44#8, 0x59#8, 0x43#8]

/-- The characters of the key of `LIMIT`, BBBBB-BBBBB-BBBBB-BBBBB-BBBBN (V-T11, V-D2). -/
def keyLimit : List Byte :=
  [0x42#8, 0x42#8, 0x42#8, 0x42#8, 0x42#8, 0x2D#8, 0x42#8, 0x42#8, 0x42#8, 0x42#8] ++
  [0x42#8, 0x2D#8, 0x42#8, 0x42#8, 0x42#8, 0x42#8, 0x42#8, 0x2D#8, 0x42#8, 0x42#8] ++
  [0x42#8, 0x42#8, 0x42#8, 0x2D#8, 0x42#8, 0x42#8, 0x42#8, 0x42#8, 0x4E#8]

/-- The characters of the largest decodable text, 99999-99999-99999-99999-9999N (V-D7). -/
def keyMax : List Byte :=
  [0x39#8, 0x39#8, 0x39#8, 0x39#8, 0x39#8, 0x2D#8, 0x39#8, 0x39#8, 0x39#8, 0x39#8] ++
  [0x39#8, 0x2D#8, 0x39#8, 0x39#8, 0x39#8, 0x39#8, 0x39#8, 0x2D#8, 0x39#8, 0x39#8] ++
  [0x39#8, 0x39#8, 0x39#8, 0x2D#8, 0x39#8, 0x39#8, 0x39#8, 0x39#8, 0x4E#8]

/-- The characters of V-D6, seven dashes in odd places. -/
def oddDashes : List Byte :=
  [0x4E#8, 0x2D#8, 0x42#8, 0x2D#8, 0x42#8, 0x2D#8, 0x42#8, 0x2D#8, 0x42#8, 0x2D#8] ++
  [0x42#8, 0x42#8, 0x42#8, 0x42#8, 0x42#8, 0x42#8, 0x42#8, 0x42#8, 0x42#8, 0x42#8] ++
  [0x42#8, 0x42#8, 0x42#8, 0x42#8, 0x42#8, 0x42#8, 0x42#8, 0x42#8, 0x42#8, 0x42#8] ++
  [0x2D#8, 0x2D#8]

/-- The characters of V-D12, two markers. -/
def twoMarkers : List Byte :=
  [0x4E#8, 0x4E#8, 0x42#8, 0x42#8, 0x42#8, 0x2D#8, 0x42#8, 0x42#8, 0x42#8, 0x42#8] ++
  [0x42#8, 0x2D#8, 0x42#8, 0x42#8, 0x42#8, 0x42#8, 0x42#8, 0x2D#8, 0x42#8, 0x42#8] ++
  [0x42#8, 0x42#8, 0x42#8, 0x2D#8, 0x42#8, 0x42#8, 0x42#8, 0x42#8, 0x42#8]

/-- The characters of V-D13, 24 content characters. -/
def shortKey : List Byte :=
  [0x4E#8, 0x42#8, 0x42#8, 0x42#8, 0x42#8, 0x2D#8, 0x42#8, 0x42#8, 0x42#8, 0x42#8] ++
  [0x42#8, 0x2D#8, 0x42#8, 0x42#8, 0x42#8, 0x42#8, 0x42#8, 0x2D#8, 0x42#8, 0x42#8] ++
  [0x42#8, 0x42#8, 0x42#8, 0x2D#8, 0x42#8, 0x42#8, 0x42#8, 0x42#8]

/-- The characters of V-D18, two foreign characters. -/
def foreignKey : List Byte :=
  [0x4E#8, 0x42#8, 0x42#8, 0x42#8, 0x42#8, 0x2D#8, 0x42#8, 0x42#8, 0x42#8, 0x42#8] ++
  [0x42#8, 0x2D#8, 0x42#8, 0x42#8, 0x42#8, 0x42#8, 0x62#8, 0x2D#8, 0x42#8, 0x42#8] ++
  [0x42#8, 0x42#8, 0x42#8, 0x2D#8, 0x42#8, 0x42#8, 0x42#8, 0x42#8, 0x31#8]

/-- The characters of V-D18 before its first foreign character. -/
def foreignBefore : List Byte :=
  [0x4E#8, 0x42#8, 0x42#8, 0x42#8, 0x42#8, 0x2D#8, 0x42#8, 0x42#8, 0x42#8, 0x42#8] ++
  [0x42#8, 0x2D#8, 0x42#8, 0x42#8, 0x42#8, 0x42#8]

/-- The characters of V-D18 after its first foreign character. -/
def foreignAfter : List Byte :=
  [0x2D#8, 0x42#8, 0x42#8, 0x42#8, 0x42#8, 0x42#8, 0x2D#8, 0x42#8, 0x42#8, 0x42#8] ++
  [0x42#8, 0x31#8]

/-- V-P1 (95_test_vectors.md): the source's end-to-end example, its registers before. -/
def e2e : State := withFields 1 0 0 1024 0 0

/-- V-P1 after PACK. -/
def e2ePacked : State := { e2e with packed := 0x00010680000000000000000000000001#128, csused := 525#64 }

/-- V-P1 after ENCKEY. -/
def e2eKey : State := { e2ePacked with text := padText keyE2E, textlen := 29#64 }

/-- V-P21: exactly `LIMIT`. -/
def atLimit : State := withFields 0 0 0xCAC5546000000 84 1 1

/-- V-P22: `LIMIT` + 1. -/
def overLimit : State := withFields 1 0 0xCAC5546000000 84 1 1

/-! ## Well-formedness -/

theorem test_alphabet_default_wf : Alphabet.wf Config.alphabet = true := by decide

theorem test_alphabet_wrong_length_refused : Alphabet.wf (Config.alphabet.take 23) = false := by decide

theorem test_alphabet_repeat_refused : Alphabet.wf (Config.alphabet.take 23 ++ [0x42#8]) = false := by decide

theorem test_alphabet_marker_refused : Alphabet.wf (Config.alphabet.take 23 ++ [0x4E#8]) = false := by decide

theorem test_alphabet_dash_refused : Alphabet.wf (Config.alphabet.take 23 ++ [0x2D#8]) = false := by decide

/-- V-X11: the accesses that are not admitted, and their neighbours that are. -/
theorem test_access_wf :
    Access.wf (.write 0x00 4 0) = false ∧ Access.wf (.write 0x04 8 0) = false ∧ Access.wf (.load 0x68 8) = false ∧
    Access.wf (.write 0xA0 1 0) = false ∧ Access.wf (.write 0x80 8 0) = false ∧ Access.wf (.load 0x30 1) = false ∧
    Access.wf (.load 0x60 8) = true ∧ Access.wf (.load 0x9F 1) = true ∧ Access.wf (.load 0x80 1) = true := by decide

theorem test_stmt_wf :
    Stmt.wf (.wr .status 0) = false ∧ Stmt.wf (.wr .cmd 1) = false ∧ Stmt.wf (.rd .cmd) = false ∧
    Stmt.wf (.issue 0) = false ∧ Stmt.wf (.issue 8) = false ∧ Stmt.wf (.issue 7) = true := by decide

theorem test_pseudo_wf :
    Pseudo.wf (.expect .cmd 0) = false ∧ Pseudo.wf (.stmt (.wr .csused 0)) = false ∧ Pseudo.wf (.wrp 0) = true := by decide

theorem test_instr_wf : ([Instr.pack, .unpack, .crc, .tenc, .tdec, .enckey, .deckey].all Instr.wf) = true := by decide

/-! ## Decoding -/

/-- The field packer's, the checksum unit's, the text transform's and the key commands' words (30_encoding.md R52). -/
theorem test_decode_words :
    decode 0x0000000000000001#64 = .ok .pack ∧ decode 0x0000000000000002#64 = .ok .unpack ∧
    decode 0x0000000000000003#64 = .ok .crc ∧ decode 0x0000000000000004#64 = .ok .tenc ∧
    decode 0x0000000000000005#64 = .ok .tdec ∧ decode 0x0000000000000006#64 = .ok .enckey ∧
    decode 0x0000000000000007#64 = .ok .deckey := by decide

/-- V-X1 to V-X5 and the last opcode. -/
theorem test_decode_illegal_words :
    decode 0x0000000000000000#64 = .error (.unknownOpcode 0x00) ∧ decode 0x0000000000000008#64 = .error (.unknownOpcode 0x08) ∧
    decode 0x00000000000000FF#64 = .error (.unknownOpcode 0xFF) ∧ decode 0x0000000000000101#64 = .error .zeroFieldSet ∧
    decode 0x8000000000000002#64 = .error .zeroFieldSet := by decide

theorem test_decodeTableWord :
    decodeTableWord 64 1 = some .pack ∧ decodeTableWord 64 7 = some .deckey ∧ decodeTableWord 64 8 = none ∧
    decodeTableWord 64 0x101 = none := by decide

/-- The placed word is the next step's command (V-X6, V-C1). -/
theorem test_withFetchWord_runs_crc :
    nextState? (step (State.reset.withFetchWord 64 3)) = some { State.reset with crcout := 311#64 } := by decide +kernel

/-! ## PACK and UNPACK -/

/-- V-P1. -/
theorem test_pack_e2e : nextState? (exec .pack e2e) = some e2ePacked := by decide +kernel

/-- V-P17: three violations, the lowest index named. -/
theorem test_pack_first_violation :
    nextState? (exec .pack (withFields 0x100000 0x40000000 0 0 0 0)) =
      some { withFields 0x100000 0x40000000 0 0 0 0 with status := 0x0001#64 } := by decide +kernel

/-- V-U2: bits 127:115 ignored, every field at its maximum. -/
theorem test_unpack_all_ones :
    nextState? (exec .unpack (withPacked 0xFFFFFFFFFFFFFFFFFFFFFFFFFFFFFFFF#128)) =
      some { withFields 0xFFFFF 0x3FFFFFFF 0x1FFFFFFFFFFFFF 0x3FF 1 1 with
        packed := 0xFFFFFFFFFFFFFFFFFFFFFFFFFFFFFFFF#128 } := by decide +kernel

/-- V-U15. -/
theorem test_unpack_mixed :
    nextState? (exec .unpack (withPacked 0x000236048D159E26AF36ABCDEF112345#128)) =
      some { withFields 0x12345 0x2ABCDEF1 0x123456789ABCD 0x6C 1 0 with
        packed := 0x000236048D159E26AF36ABCDEF112345#128 } := by decide +kernel

/-! ## CRC -/

/-- V-C: single byte steps, and table entries of V-CRC-TABLE. -/
theorem test_crcByte :
    crcByte 0x12345678#32 0x9A#8 = 0x7B527556#32 ∧ crcByte 0xFFFFFFFF#32 0xFF#8 = 0xFFFFFF00#32 ∧
    crcTable 2 = 0x09823B6E#32 ∧ crcTable 255 = 0xB1F740B4#32 := by decide +kernel

/-- The same values of V-C and V-CRC-TABLE in the numbers the statements use. -/
theorem test_crcByteNum :
    crcByteNum 0x12345678 0x9A = 0x7B527556 ∧ crcByteNum 0xFFFFFFFF 0xFF = 0xFFFFFF00 ∧
    crcByteNum 0 2 = 0x09823B6E ∧ crcByteNum 0 255 = 0xB1F740B4 := by decide +kernel

/-- V-C12. -/
theorem test_crc_mixed :
    nextState? (exec .crc (withPacked 0x000200048D159E26AF36ABCDEF112345#128)) =
      some { withPacked 0x000200048D159E26AF36ABCDEF112345#128 with crcout := 0x06C#64 } := by decide +kernel

/-! ## TENC and TDEC -/

/-- V-T11: `LIMIT`, the marker last. -/
theorem test_tenc_limit :
    nextState? (exec .tenc (withPacked 0x00062A32B15518000000000000000000#128)) =
      some { withPacked 0x00062A32B15518000000000000000000#128 with text := padText keyLimit, textlen := 29#64 } := by
  decide +kernel

/-- V-T12: one more fails. -/
theorem test_tenc_over_limit :
    nextState? (exec .tenc (withPacked 0x00062A32B15518000000000000000001#128)) =
      some { withPacked 0x00062A32B15518000000000000000001#128 with status := 0x0002#64 } := by decide +kernel

/-- V-D7: above `LIMIT`, accepted. -/
theorem test_tdec_max :
    nextState? (exec .tdec (withText keyMax)) =
      some { withText keyMax with packed := 0x00066BF4CE0DF8FFFFFFFFFFFFFFFFFF#128 } := by decide +kernel

/-- V-D6 and V-D18: dashes anywhere; the leftmost foreign character. -/
theorem test_tdec_dashes_and_foreign :
    nextState? (exec .tdec (withText oddDashes)) = some (withText oddDashes) ∧
    nextState? (exec .tdec (withText foreignKey)) = some { withText foreignKey with status := 0x6203#64 } := by
  decide +kernel

/-! ## ENCKEY and DECKEY -/

/-- V-P1, the text. -/
theorem test_enckey_e2e : nextState? (exec .enckey e2e) = some e2eKey := by decide +kernel

/-- V-P22. -/
theorem test_enckey_over_limit :
    nextState? (exec .enckey overLimit) = some { overLimit with status := 0x0002#64 } := by decide +kernel

/-- V-D9 with V-U3. -/
theorem test_deckey_e2e :
    nextState? (exec .deckey (withText keyE2E)) =
      some { withText keyE2E with
        packed := 0x00010680000000000000000000000001#128, group := 1, checksum := 0x20D } := by decide +kernel

/-- V-D12. -/
theorem test_deckey_two_markers :
    nextState? (exec .deckey (withText twoMarkers)) = some { withText twoMarkers with status := 0x0004#64 } := by
  decide +kernel

/-! ## Host accesses -/

/-- V-X11: refused by name, with offset and size. -/
theorem test_unadmitted_refused :
    refusal? (step (facing (.access (.write 0x00 4 0)) [] State.reset)) = some (.unadmittedAccess 0x00 4) ∧
    refusal? (step (facing (readAt 0x68 8) [] State.reset)) = some (.unadmittedAccess 0x68 8) ∧
    refusal? (step (facing (.otherHost (.load 0 8)) [] State.reset)) = some .secondHost := by decide +kernel

/-- V-X10, V-X8: the two halves of `PACKED`; a read of `CMD` returns 0. -/
theorem test_packed_halves :
    nextState? (step (facing (writeWord 0x38 0x2222222222222222) [] (withPacked 0x1111111111111111#128))) =
      some (withPacked 0x22222222222222221111111111111111#128) ∧
    nextState? (step (facing (readAt 0x58 8) [] e2ePacked)) =
      some { e2ePacked with observed := [.word 0] } := by decide +kernel

/-- V-X1 and V-X7: an illegal word; a write of a read-only register. -/
theorem test_illegal_word_and_readonly_write :
    nextState? (step (facing (writeWord 0x58 0) [] e2ePacked)) = some { e2ePacked with status := 0x0005#64 } ∧
    nextState? (step (facing (writeWord 0x40 7) [] e2ePacked)) = some e2ePacked := by decide +kernel

/-- The statements of program P1's first and last lines (95_test_vectors.md). -/
theorem test_statement_encodings :
    Stmt.access (.wr (.field .checksum) 0x400) = .write 0x18 8 0x400#64 ∧ Stmt.access (.wrb 28 0x4E) = .write 0x9C 1 0x4E#8 ∧
    Stmt.access (.rd .csused) = .load 0x40 8 ∧ Stmt.access (.rdb 29) = .load 0x9D 1 ∧
    Stmt.access (commandStmt .tenc) = .write 0x58 8 4#64 := by decide

/-- The expansions of 30_encoding.md R59, and RDTEXT's with a TEXTLEN over the buffer. -/
theorem test_pseudo_expansions :
    Pseudo.expand (.wrp 0x22222222222222221111111111111111#128) =
      [.wr .packedLo 0x1111111111111111#64, .wr .packedHi 0x2222222222222222#64] ∧
    Pseudo.expand (.wrtext "N-7") = [.wrb 0 0x4E#8, .wrb 1 0x2D#8, .wrb 2 0x37#8, .wr .textlen 3#64] ∧
    (Pseudo.expand (.rdtext 33#64)).length = 33 ∧ Pseudo.expand (.rdtext 1#64) = [.rd .textlen, .rdb 0] ∧
    Pseudo.wf (.wrtext "NBBBB-BBBBB-BBBBB-BBBBB-BBBBB-BBB") = false := by decide +kernel

/-- R60 with R59: after a failed ENCKEY from reset (TEXTLEN 0) RDTEXT is one read; after a success it is that and 29. -/
theorem test_encodeKeyCall_reads :
    (assemble (encodeKeyCall 0 0 0 0 0 0 0#64)).drop 6 = [writeWord 0x58 6#64, readAt 0x60 8] ∧
    (assemble (encodeKeyCall 1 0 0 autoChecksum 0 0 29#64)).length = 6 + 1 + 1 + 29 := by decide +kernel

/-! ## Witnesses: a concrete state and operands for the hypotheses of each statement, one for each clause -/

theorem witness_illegalWordRaisesIllegalCommand : (0#64).toNat < 1 ∧ 7 < (8#64).toNat ∧ 7 < (0x101#64).toNat := by decide

theorem witness_stepRunsTheDecodedCommand : decode 7#64 = .ok .deckey := by decide

theorem witness_decodeAndEncodeAgree : Instr.wf .deckey = true ∧ decode 7#64 = .ok .deckey := by decide

theorem witness_idleStepChangesNothing : State.reset.pending = [] := rfl

theorem witness_accessesAreAdmittedExactly :
    Admitted 0x00 8 ∧ Admitted 0x60 8 ∧ Admitted 0x80 1 ∧ Admitted 0x9F 1 ∧ ¬ Admitted 0x7F 1 ∧ ¬ Admitted 0xA0 1 ∧
    ¬ Admitted 0x68 8 ∧ ¬ Admitted 0x00 4 := by
  unfold Admitted
  decide

theorem witness_accessesThemselvesRaiseNothing : Admitted 0x60 8 ∧ (0x60 : Nat) ≠ 0x58 ∧ Admitted 0x58 8 ∧ ¬ Admitted 0x59 8 := by
  unfold Admitted
  decide

theorem witness_readOnlyWritesAreIgnored :
    ∀ off ∈ [0x40, 0x48, 0x50], off = 0x40 ∨ off = 0x48 ∨ off = 0x50 := by decide

theorem witness_readsReturnTheRegister : (0x58, 0#64) ∈ [(0x00, e2e.group), (0x58, 0#64)] := by decide

theorem witness_writesReachOneRegisterOnly :
    Reg.writable .packedHi = true ∧ Reg.packedLo ≠ .packedHi ∧
    step (facing (writeWord Reg.packedHi.offset 2#64) [] State.reset) = .next (withPacked 0x20000000000000000#128) :=
  ⟨rfl, by decide, nextState?_eq_some_iff.mp (by decide +kernel)⟩

theorem witness_windowIsLittleEndian : 15 < 16 ∧ 7 < 8 := by decide

/-- The three clauses: the two halves of `PACKED`, `TEXTLEN` and a `TEXT` byte, the first and the last `TEXT` byte. -/
theorem witness_registerWritesCommute :
    Reg.writable .packedLo = true ∧ Reg.writable .packedHi = true ∧ Reg.packedLo ≠ .packedHi ∧
    Reg.writable .textlen = true ∧ (0 : Fin 32) ≠ 31 := by decide

/-- An instance whose host issues CRC and reads `TEXT[31]`, with what its host has read before. -/
def crcInstance (seen : List ReadValue) : State :=
  { State.reset with pending := [writeWord 0x58 3#64, readAt 0x9F 1], observed := seen }

/-- Two like instances that differ in what was read from them, interleaved (V-C1: the CRC of 0 is 311). -/
theorem witness_instancesDoNotInterfere :
    (∀ seen, ∀ e ∈ (crcInstance seen).pending, OwnEvent e) ∧
    crcInstance [.word 5] = { crcInstance [] with observed := (crcInstance [.word 5]).observed } ∧
    [true, false, false, true].count true = [true, false, false, true].count false ∧
    runPair [true, false, false, true] (crcInstance []) (crcInstance [.word 5]) =
      some ({ State.reset with crcout := 311#64, observed := [.byte 0] },
        { State.reset with crcout := 311#64, observed := [.word 5, .byte 0] }) := by
  refine ⟨fun seen e he => ?_, by decide +kernel⟩
  obtain rfl | rfl : e = writeWord 0x58 3#64 ∨ e = readAt 0x9F 1 := by simpa [crcInstance] using he
  · exact .inl ⟨rfl, by decide⟩
  · exact .inr ⟨rfl, by decide⟩

theorem witness_statementsAreAdmittedAccesses : Stmt.wf (.wrb 31 0xFF) = true ∧ Stmt.wf (.wr .textlen 33) = true := by decide

theorem witness_resetMeetsTheInvariant : LegalStatus Config.alphabet 0x6203#64 ∧ ¬ LegalStatus Config.alphabet 0x4203#64 := by
  unfold LegalStatus
  decide +kernel

/-- The invariant holds of a state a run reaches: V-D18's failed TDEC. -/
theorem witness_everyStepKeepsTheInvariant :
    Inv (withText foreignKey) ∧
    step ((withText foreignKey).withFetchWord 64 5) = .next { withText foreignKey with status := 0x6203#64 } :=
  ⟨⟨by decide, by decide, by unfold LegalStatus; decide +kernel⟩, nextState?_eq_some_iff.mp (by decide +kernel)⟩

theorem witness_failedCommandChangesOnlyStatus :
    exec .pack State.reset = .next { State.reset with status := 0x0301#64 } ∧
    ({ State.reset with status := 0x0301#64 } : State).status ≠ 0#64 :=
  ⟨nextState?_eq_some_iff.mp (by decide +kernel), by decide⟩

/-- For the statements about any command's next state. -/
theorem witness_commandsAnswer :
    exec .pack e2e = .next e2ePacked ∧ exec .unpack State.reset = .next State.reset ∧
    exec .crc State.reset = .next { State.reset with crcout := 311#64 } ∧
    exec .tenc e2ePacked = .next e2eKey ∧ exec .tdec e2eKey = .next e2eKey ∧ exec .enckey e2e = .next e2eKey ∧
    exec .deckey e2eKey = .next { e2eKey with checksum := 525#64 } :=
  ⟨nextState?_eq_some_iff.mp (by decide +kernel), nextState?_eq_some_iff.mp (by decide +kernel),
    nextState?_eq_some_iff.mp (by decide +kernel), nextState?_eq_some_iff.mp (by decide +kernel),
    nextState?_eq_some_iff.mp (by decide +kernel), nextState?_eq_some_iff.mp (by decide +kernel),
    nextState?_eq_some_iff.mp (by decide +kernel)⟩

theorem witness_commandsRaiseTheirOwnErrorsOnly :
    exec .pack State.reset = .next { State.reset with status := 0x0301#64 } ∧
    exec .tdec (withText foreignKey) = .next { withText foreignKey with status := 0x6203#64 } :=
  ⟨witness_failedCommandChangesOnlyStatus.1, nextState?_eq_some_iff.mp (by decide +kernel)⟩

theorem witness_commandsWriteListedRegistersOnly : exec .tenc e2ePacked = .next e2eKey := witness_commandsAnswer.2.2.2.1

theorem witness_commandsAreIdempotent : exec .enckey e2e = .next e2eKey := witness_commandsAnswer.2.2.2.2.2.1

theorem witness_commandsReadListedRegistersOnly :
    OperandsAgree .tdec e2eKey { e2eKey with group := 5#64, text := e2eKey.text.set 31 0xFF#8 } ∧
    exec .tdec { e2eKey with group := 5#64, text := e2eKey.text.set 31 0xFF#8 } =
      .next { e2eKey with group := 5#64, text := e2eKey.text.set 31 0xFF#8 } :=
  ⟨⟨rfl, by decide +kernel⟩, nextState?_eq_some_iff.mp (by decide +kernel)⟩

/-- A PACK that succeeds (V-P1), and each field but the checksum one over its maximum. -/
theorem witness_fieldLayoutTable :
    exec .pack e2e = .next e2ePacked ∧ e2ePacked.status = 0#64 ∧
    ∀ f ∈ [Field.group, .serial, .security, .upgrade, .extra],
      f ≠ .checksum ∧
      f.maxValue < ((withFields 0x100000 0x40000000 0x20000000000000 1 2 2).fieldReg f).toNat :=
  ⟨witness_commandsAnswer.1, rfl, by decide⟩

/-- V-P10 to V-P16 with the fields before at their bounds: one state for each clause, at the value one over. -/
theorem witness_outOfBoundsNamesTheFirstField :
    (let s := withFields 0x100000 0 0 1024 0 0; 0xFFFFF < s.group.toNat) ∧
    (let s := withFields 0xFFFFF 0x40000000 0 1024 0 0; s.group.toNat ≤ 0xFFFFF ∧ 0x3FFFFFFF < s.serial.toNat) ∧
    (let s := withFields 0xFFFFF 0x3FFFFFFF 0x20000000000000 1024 0 0
     s.group.toNat ≤ 0xFFFFF ∧ s.serial.toNat ≤ 0x3FFFFFFF ∧ 0x1FFFFFFFFFFFFF < s.security.toNat) ∧
    (let s := withFields 0xFFFFF 0x3FFFFFFF 0x1FFFFFFFFFFFFF 0 0 0
     s.group.toNat ≤ 0xFFFFF ∧ s.serial.toNat ≤ 0x3FFFFFFF ∧ s.security.toNat ≤ 0x1FFFFFFFFFFFFF ∧ s.checksum.toNat = 0) ∧
    (let s := withFields 0xFFFFF 0x3FFFFFFF 0x1FFFFFFFFFFFFF 1025 0 0
     s.group.toNat ≤ 0xFFFFF ∧ s.serial.toNat ≤ 0x3FFFFFFF ∧ s.security.toNat ≤ 0x1FFFFFFFFFFFFF ∧ 1024 < s.checksum.toNat) ∧
    (let s := withFields 0xFFFFF 0x3FFFFFFF 0x1FFFFFFFFFFFFF 1024 2 0
     s.group.toNat ≤ 0xFFFFF ∧ s.serial.toNat ≤ 0x3FFFFFFF ∧ s.security.toNat ≤ 0x1FFFFFFFFFFFFF ∧ 1 ≤ s.checksum.toNat ∧
      s.checksum.toNat ≤ 1024 ∧ 1 < s.upgrade.toNat) ∧
    (let s := withFields 0xFFFFF 0x3FFFFFFF 0x1FFFFFFFFFFFFF 1 1 2
     s.group.toNat ≤ 0xFFFFF ∧ s.serial.toNat ≤ 0x3FFFFFFF ∧ s.security.toNat ≤ 0x1FFFFFFFFFFFFF ∧ 1 ≤ s.checksum.toNat ∧
      s.checksum.toNat ≤ 1024 ∧ s.upgrade.toNat ≤ 1 ∧ 1 < s.extra.toNat) := by decide

theorem witness_packStoresTheFieldSum :
    FieldsInBounds e2e ∧ e2e.extra.toNat = 0 ∧ FieldsInBounds atLimit ∧ packedSum atLimit ≤ 24 ^ 25 := by
  unfold FieldsInBounds
  decide +kernel

theorem witness_unencodableAboveTheLimit :
    FieldsInBounds overLimit ∧ overLimit.extra.toNat ≠ 0 ∧ 24 ^ 25 < packedSum overLimit ∧
    FieldsInBounds atLimit ∧ packedSum atLimit ≤ 24 ^ 25 := by
  unfold FieldsInBounds
  decide +kernel

theorem witness_unencodableArisesExactlyWhere : FieldsInBounds overLimit ∧ usedChecksum overLimit = 84 := by
  unfold FieldsInBounds
  decide +kernel

theorem witness_unpackRestoresThePackedFields : exec .pack e2e = .next e2ePacked ∧ e2ePacked.status = 0#64 :=
  ⟨witness_commandsAnswer.1, rfl⟩

/-- The three clauses: `PACKED` 0, `LIMIT` (V-U13) and the largest decodable value (V-U14). -/
theorem witness_packAfterUnpack :
    exec .unpack State.reset = .next State.reset ∧ State.reset.packed.toNat / 2 ^ 103 % 2 ^ 10 = 0 ∧
    (withPacked 0x00062A32B15518000000000000000000#128).packed.toNat / 2 ^ 103 % 2 ^ 10 ≠ 0 ∧
    (withPacked 0x00062A32B15518000000000000000000#128).packed.toNat % 2 ^ 115 ≤ 24 ^ 25 ∧
    (withPacked 0x00066BF4CE0DF8FFFFFFFFFFFFFFFFFF#128).packed.toNat / 2 ^ 103 % 2 ^ 10 ≠ 0 ∧
    24 ^ 25 < (withPacked 0x00066BF4CE0DF8FFFFFFFFFFFFFFFFFF#128).packed.toNat % 2 ^ 115 :=
  ⟨witness_commandsAnswer.2.1, by decide +kernel⟩

theorem witness_digitsExpandTheInteger : (24 ^ 25 : Nat) ≤ 24 ^ 25 ∧ (24 ^ 25 : Nat) / 24 ^ 24 = 24 := by decide +kernel

theorem witness_encodeTextCharByChar :
    Alphabet.wf Config.alphabet = true ∧ (24 ^ 25 : Nat) ≤ 24 ^ 25 ∧ (24 ^ 25 : Nat) < 24 ^ 25 + 1 := by decide +kernel

/-- V-T11: the marker last, at the top digit 24. -/
theorem witness_encodedTextHasTheKeyShape :
    Alphabet.wf Config.alphabet = true ∧ encodeText Config.alphabet (24 ^ 25) = .ok keyLimit ∧
    keyLimit[28]? = some Config.marker := by decide +kernel

theorem witness_tencWritesTheKeyUpToTheLimit :
    (withPacked 0x00062A32B15518000000000000000000#128).packed.toNat ≤ 24 ^ 25 ∧
    24 ^ 25 < (withPacked 0x00062A32B15518000000000000000001#128).packed.toNat := by decide +kernel

theorem witness_decodeTextInvertsEncodeText : Alphabet.wf Config.alphabet = true ∧ (24 ^ 25 : Nat) ≤ 24 ^ 25 := by decide +kernel

theorem witness_decodeTextRange :
    Alphabet.wf Config.alphabet = true ∧ decodeText Config.alphabet keyMax = .ok (25 * 24 ^ 24 - 1) := by
  decide +kernel

/-- The three ways to be malformed (V-D25, V-D13, V-D12). -/
theorem witness_malformedTextIsReportedFirst :
    32 < ({ withText keyE2E with textlen := 33#64 } : State).textlen.toNat ∧
    (contentOf (inputOf (withText shortKey))).length ≠ 25 ∧
    (contentOf (inputOf (withText twoMarkers))).count 0x4E#8 ≠ 1 := by decide +kernel

theorem witness_leftmostForeignCharacterIsReported :
    (withText foreignKey).textlen.toNat ≤ 32 ∧ WellShaped (inputOf (withText foreignKey)) ∧
    inputOf (withText foreignKey) = foreignBefore ++ 0x62#8 :: foreignAfter ∧
    (∀ x ∈ foreignBefore, KnownChar Config.alphabet x) ∧ ¬ KnownChar Config.alphabet 0x62#8 := by
  unfold WellShaped KnownChar
  decide +kernel

theorem witness_tdecStoresTheTextValue :
    (withText keyMax).textlen.toNat ≤ 32 ∧ WellShaped (inputOf (withText keyMax)) ∧
    (∀ c ∈ inputOf (withText keyMax), KnownChar Config.alphabet c) ∧ WellShaped (inputOf (withText oddDashes)) := by
  unfold WellShaped KnownChar
  decide +kernel

/-- V-D26: other bytes at and after `TEXTLEN`. -/
theorem witness_textBeyondTheLengthIsNotRead :
    (∀ k : Fin 32, k.val < e2eKey.textlen.toNat → (e2eKey.text.set 29 0x58#8)[k] = e2eKey.text[k]) ∧
    exec .tdec e2eKey = .next e2eKey :=
  ⟨by decide +kernel, witness_commandsAnswer.2.2.2.2.1⟩

theorem witness_enckeyStoresThePackedKey :
    FieldsInBounds e2e ∧ e2e.extra.toNat = 0 ∧ FieldsInBounds atLimit ∧ packedSum atLimit ≤ 24 ^ 25 :=
  witness_packStoresTheFieldSum

theorem witness_deckeyStoresTheTextFields :
    (withText keyE2E).textlen.toNat ≤ 32 ∧ WellShaped (inputOf (withText keyE2E)) ∧
    ∀ c ∈ inputOf (withText keyE2E), KnownChar Config.alphabet c := by
  unfold WellShaped KnownChar
  decide +kernel

theorem witness_enckeyIsPackThenTenc :
    exec .pack overLimit = .next { overLimit with status := 0x0002#64 } ∧
    exec .pack e2e = .next e2ePacked ∧ e2ePacked.status = 0#64 :=
  ⟨nextState?_eq_some_iff.mp (by decide +kernel), witness_commandsAnswer.1, rfl⟩

theorem witness_deckeyIsTdecThenUnpack :
    exec .tdec (withText shortKey) = .next { withText shortKey with status := 0x0004#64 } ∧
    exec .tdec e2eKey = .next e2eKey ∧ e2eKey.status = 0#64 :=
  ⟨nextState?_eq_some_iff.mp (by decide +kernel), witness_commandsAnswer.2.2.2.2.1, rfl⟩

theorem witness_deckeyInvertsEnckey : exec .enckey e2e = .next e2eKey ∧ e2eKey.status = 0#64 :=
  ⟨witness_commandsAnswer.2.2.2.2.2.1, rfl⟩

theorem witness_autoChecksumKeysVerify :
    e2e.checksum = 1024#64 ∧ exec .enckey e2e = .next e2eKey ∧ e2eKey.status = 0#64 ∧
    exec .deckey e2eKey = .next { e2eKey with checksum := 525#64 } :=
  ⟨rfl, witness_commandsAnswer.2.2.2.2.2.1, rfl, witness_commandsAnswer.2.2.2.2.2.2⟩

end Sys2Proof.Tests.Slice0
end

section
/-! Proofs for 10_state.md. PACK and TDEC on a state where they fail, in general; the reset state is one such state. -/

namespace Sys2Proof.Machine

/-- Every entry of `TEXT` is zero after reset (10_state.md R30). -/
@[simp] theorem State.reset_text_getElem (i : Fin 32) : State.reset.text[i] = 0#8 :=
  Vector.getElem_replicate i.isLt

/-- PACK reports the first field out of bounds and changes STATUS alone (40_field_packer.md R62, 60_exceptions.md R113). -/
theorem exec_pack_of_firstOutOfBounds {s : State} {f : Field} (h : firstOutOfBounds s.fieldSet = some f) :
    exec .pack s = .next { s with status := BitVec.ofNat 64 (1 + 256 * f.index) } := by
  have hpack : packFields s.fieldSet = .error (.outOfBounds f) := by simp only [packFields, h]
  calc exec .pack s = finish s ((packFields s.fieldSet).map fun r => s.setPackResult r) := rfl
    _ = .next (s.raise (.outOfBounds f)) := by rw [hpack]; exact finish_error s _
    _ = .next { s with status := BitVec.ofNat 64 (1 + 256 * f.index) } := by
      rw [State.raise, statusWord_outOfBounds]; rfl

/-- An input text that stands for no integer makes TDEC raise its error (42_text_transform.md R102). -/
theorem exec_tdec_of_inputKey_error {s : State} {e : CodecError} (h : s.inputKey Config.alphabet = .error e) :
    exec .tdec s = .next (s.raise e) := by
  calc exec .tdec s = finish s ((s.inputKey Config.alphabet).map fun n => s.setPackedNat n) := rfl
    _ = .next (s.raise e) := by rw [h]; exact finish_error s e

/-- The empty text is malformed: it has no 25 content characters (42_text_transform.md R96). -/
theorem inputKey_of_textlen_zero (a : List Byte) {s : State} (h : s.textlen = 0#64) :
    s.inputKey a = .error .malformedLength := by
  have hlen : s.textlen.toNat = 0 := by rw [h]; rfl
  rw [inputKey_eq, if_neg (by omega), hlen, List.take_zero]
  exact decodeContent_malformed a (.inl (by decide))

/-- After reset the checksum is the first field out of bounds: 0 is below its least value 1 (40_field_packer.md R63). -/
theorem firstOutOfBounds_reset : firstOutOfBounds State.reset.fieldSet = some .checksum := by
  decide

/-- Settles O20: the registers are zero by definition, the checksum 0 is out of bounds for PACK, and the text of length 0
is malformed for TDEC. -/
theorem resetRegistersAreZero : Obligations.ResetRegistersAreZero := by
  unfold Obligations.ResetRegistersAreZero
  refine ⟨rfl, rfl, rfl, rfl, rfl, rfl, rfl, rfl, rfl, rfl, rfl, State.reset_text_getElem, ?_, ?_⟩
  · exact exec_pack_of_firstOutOfBounds firstOutOfBounds_reset
  · exact exec_tdec_of_inputKey_error (inputKey_of_textlen_zero _ rfl)

end Sys2Proof.Machine
end

section
/-! Proofs for 20_memory.md. Which accesses have a step, and the two halves of `PACKED`. -/

namespace Sys2Proof.Machine

open Sys2Proof.SpecForm

/-! ## A step on one host event -/

theorem step_facing (e : HostEvent) (rest : List HostEvent) (s : State) :
    step (facing e rest s) = serve e (s.setPending rest) :=
  step_cons rfl

theorem step_facing_write (off n : Nat) (v : BitVec (8 * n)) (rest : List HostEvent) (s : State) :
    step (facing (.access (.write off n v)) rest s) = memWrite off n v (s.setPending rest) :=
  step_facing _ rest s

theorem step_facing_readAt (off n : Nat) (rest : List HostEvent) (s : State) :
    step (facing (readAt off n) rest s) = memRead off n (s.setPending rest) :=
  step_facing _ rest s

@[simp] theorem State.loadReg_setPending (s : State) (es : List HostEvent) (r : Reg) :
    (s.setPending es).loadReg r = s.loadReg r := by
  cases r with
  | field f => cases f <;> rfl
  | _ => rfl

/-- A write of a register other than `CMD` stores it (R40). -/
theorem step_writeWord_of_ne_cmd {r : Reg} (h : r ≠ .cmd) (v : Word) (rest : List HostEvent) (s : State) :
    step (facing (writeWord r.offset v) rest s) = .next ((s.setPending rest).storeReg r v) := by
  rw [writeWord, step_facing_write, memWrite_reg, writeReg_of_ne_cmd h]

/-- A read of a register joins its value to the host's observation (R40, 30_encoding.md R57). -/
theorem step_readAt_reg (r : Reg) (rest : List HostEvent) (s : State) :
    step (facing (readAt r.offset 8) rest s) = .next ((s.setPending rest).observe (.word (s.loadReg r))) := by
  rw [step_facing_readAt, memRead_reg, State.loadReg_setPending]

/-! ## Admitted accesses -/

theorem admitted_eq_true_iff {off n : Nat} : admitted off n = true ↔ Admitted off n := by
  simp only [admitted, Admitted, wordOffsets, Bool.or_eq_true, Bool.and_eq_true, beq_iff_eq, List.contains_iff_mem,
    decide_eq_true_eq, and_assoc]

/-- An access names no port exactly when R36 does not admit it. -/
theorem portAt_eq_none_iff {off n : Nat} : portAt off n = none ↔ ¬ Admitted off n := by
  rw [← admitted_eq_true_iff, ← portAt_isSome_eq_admitted, Bool.not_eq_true, Option.isSome_eq_false_iff,
    Option.isNone_iff_eq_none]

/-- An admitted access is of a whole register at its offset or of one `TEXT` entry (R36). -/
theorem reg_or_text_of_admitted {off n : Nat} (h : Admitted off n) :
    (∃ r : Reg, n = 8 ∧ off = r.offset) ∨ ∃ i : Fin 32, n = 1 ∧ off = 0x80 + i.val := by
  cases hp : portAt off n with
  | none => exact absurd h (portAt_eq_none_iff.mp hp)
  | some p =>
    cases p with
    | reg r => exact .inl ⟨r, portAt_reg_size hp⟩
    | text i => exact .inr ⟨i, portAt_text_size hp⟩

/-! ## Unadmitted accesses are refused -/

theorem memWrite_of_not_admitted {off n : Nat} (h : ¬ Admitted off n) (v : BitVec (8 * n)) (s : State) :
    memWrite off n v s = .refused (.unadmittedAccess off n) := by
  simp only [memWrite, portAt_eq_none_iff.mpr h]

theorem memRead_of_not_admitted {off n : Nat} (h : ¬ Admitted off n) (s : State) :
    memRead off n s = .refused (.unadmittedAccess off n) := by
  simp only [memRead, portAt_eq_none_iff.mpr h]

/-! ## Admitted accesses answer a next state and keep the host's list -/

/-- No command touches the host's two lists (30_encoding.md R57). -/
theorem exec_keeps_hostLists {i : Instr} {s t : State} (h : exec i s = .next t) :
    t.pending = s.pending ∧ t.observed = s.observed := by
  cases i with
  | pack => obtain ⟨e, -, rfl⟩ | ⟨r, -, rfl⟩ := execPack_cases h <;> simp
  | unpack =>
    obtain rfl := Host.Outcome.next.inj ((execUnpack_eq s).symm.trans h)
    simp
  | crc =>
    obtain rfl := Host.Outcome.next.inj ((execCrc_eq s).symm.trans h)
    simp
  | tenc => obtain ⟨-, rfl⟩ | ⟨k, -, -, rfl⟩ := execTenc_cases h <;> simp
  | tdec => obtain ⟨e, -, rfl⟩ | ⟨n, -, rfl⟩ := execTdec_cases h <;> simp
  | enckey => obtain ⟨e, -, rfl⟩ | ⟨r, k, -, -, rfl⟩ := execEnckey_cases h <;> simp
  | deckey => obtain ⟨e, -, rfl⟩ | ⟨n, -, rfl⟩ := execDeckey_cases h <;> simp

/-- Every command word has an effect, an illegal one too (30_encoding.md R54). -/
theorem issueCommand_answers (w : Word) (s : State) : ∃ t, issueCommand w s = .next t ∧ t.pending = s.pending := by
  obtain ⟨i, -, hi⟩ | ⟨e, -, he⟩ := issueCommand_cases w s
  · obtain ⟨t, ht⟩ := exec_answers i s
    exact ⟨t, hi.trans ht, (exec_keeps_hostLists ht).1⟩
  · exact ⟨_, he, State.raise_pending s _⟩

theorem writeReg_answers (r : Reg) (v : Word) (s : State) : ∃ t, writeReg r v s = .next t ∧ t.pending = s.pending := by
  by_cases hr : r = .cmd
  · subst hr
    exact issueCommand_answers v s
  · exact ⟨_, writeReg_of_ne_cmd hr v s, s.storeReg_pending r v⟩

theorem memWrite_answers {off n : Nat} (h : Admitted off n) (v : BitVec (8 * n)) (s : State) :
    ∃ t, memWrite off n v s = .next t ∧ t.pending = s.pending := by
  obtain ⟨r, rfl, rfl⟩ | ⟨i, rfl, rfl⟩ := reg_or_text_of_admitted h
  · rw [memWrite_reg]
    exact writeReg_answers r v s
  · exact ⟨_, memWrite_text i v s, State.setTextByte_pending s i v⟩

theorem memRead_answers {off n : Nat} (h : Admitted off n) (s : State) :
    ∃ t, memRead off n s = .next t ∧ t.pending = s.pending := by
  obtain ⟨r, rfl, rfl⟩ | ⟨i, rfl, rfl⟩ := reg_or_text_of_admitted h
  · exact ⟨_, memRead_reg r s, State.observe_pending s _⟩
  · exact ⟨_, memRead_text i s, State.observe_pending s _⟩

/-- Settles O7: an admitted access names a port, and every port's access answers; an unadmitted one names none. -/
theorem accessesAreAdmittedExactly : Obligations.AccessesAreAdmittedExactly := by
  unfold Obligations.AccessesAreAdmittedExactly
  intro s rest off n v
  rw [step_facing_write, step_facing_readAt]
  exact ⟨fun h => ⟨memWrite_answers h v _, memRead_answers h _⟩,
    fun h => ⟨memWrite_of_not_admitted h v _, memRead_of_not_admitted h _⟩⟩

/-! ## The two halves of `PACKED` -/

theorem append_eq_ofNat (a b : Word) : a ++ b = BitVec.ofNat 128 (a.toNat * 2 ^ 64 + b.toNat) := by
  rw [← append_toNat, BitVec.ofNat_toNat, BitVec.setWidth_eq]

theorem State.packedLo_eq_ofNat (s : State) : s.packedLo = BitVec.ofNat 64 (s.packed.toNat % 2 ^ 64) := by
  rw [← s.packedLo_toNat, BitVec.ofNat_toNat, BitVec.setWidth_eq]

theorem State.packedHi_eq_ofNat (s : State) : s.packedHi = BitVec.ofNat 64 (s.packed.toNat / 2 ^ 64) := by
  rw [← s.packedHi_toNat, BitVec.ofNat_toNat, BitVec.setWidth_eq]

/-- A store to the low half keeps the quotient by 2^64 (R37). -/
theorem State.storeReg_packedLo (s : State) (v : Word) :
    s.storeReg .packedLo v = s.setPacked (BitVec.ofNat 128 (s.packed.toNat / 2 ^ 64 * 2 ^ 64 + v.toNat)) := by
  rw [← s.packedHi_toNat, ← append_eq_ofNat]
  rfl

/-- A store to the high half keeps the remainder by 2^64 (R37). -/
theorem State.storeReg_packedHi (s : State) (v : Word) :
    s.storeReg .packedHi v = s.setPacked (BitVec.ofNat 128 (v.toNat * 2 ^ 64 + s.packed.toNat % 2 ^ 64)) := by
  rw [← s.packedLo_toNat, ← append_eq_ofNat]
  rfl

/-- Settles O10: each half is stored and loaded as the register at its offset, and a join of words is a sum of numbers. -/
theorem packedIsAccessedAsTwoHalves : Obligations.PackedIsAccessedAsTwoHalves := by
  unfold Obligations.PackedIsAccessedAsTwoHalves
  intro s rest v
  refine ⟨?_, ?_, ?_, ?_⟩
  · exact (step_writeWord_of_ne_cmd (r := .packedLo) (by decide) v rest s).trans
      (congrArg _ (State.storeReg_packedLo _ v))
  · exact (step_writeWord_of_ne_cmd (r := .packedHi) (by decide) v rest s).trans
      (congrArg _ (State.storeReg_packedHi _ v))
  · rw [← s.packedLo_eq_ofNat]
    exact step_readAt_reg .packedLo rest s
  · rw [← s.packedHi_eq_ofNat]
    exact step_readAt_reg .packedHi rest s

end Sys2Proof.Machine
end

section
/-! Proofs for 30_encoding.md. The opcode map as one equivalence, `decode w = .ok i ↔ w = encode i`, and the illegal words. -/

namespace Sys2Proof

/-- The two fields make up the whole command word (R50). -/
theorem toNat_eq_opcField_add_zeroField (w : Word) : w.toNat = (opcField w).toNat + 2 ^ 8 * (zeroField w).toNat := by
  have hw : w.toNat < 2 ^ 64 := w.isLt
  simp only [opcField, zeroField, BitVec.extractLsb'_toNat, Nat.shiftRight_eq_div_pow]
  omega

/-- A word with `ZERO` clear is the number in its `OPC` field. -/
theorem toNat_eq_opcField {w : Word} (h : zeroField w = 0#56) : w.toNat = (opcField w).toNat := by
  rw [toNat_eq_opcField_add_zeroField, h]
  rfl

theorem decode_encode (i : Instr) : decode (encode i) = .ok i := by
  cases i with
  | pack => exact (Laws.EncodedWord.pack rfl).1
  | unpack => exact (Laws.EncodedWord.unpack rfl).1
  | crc => exact (Laws.EncodedWord.crc rfl).1
  | tenc => exact (Laws.EncodedWord.tenc rfl).1
  | tdec => exact (Laws.EncodedWord.tdec rfl).1
  | enckey => exact (Laws.EncodedWord.enckey rfl).1
  | deckey => exact (Laws.EncodedWord.deckey rfl).1

/-- No second word decodes to a command: all 64 bits are decoded (R52). -/
theorem eq_encode_of_decode {w : Word} {i : Instr} (h : decode w = .ok i) : w = encode i := by
  by_cases hz : zeroField w = 0#56
  · apply BitVec.eq_of_toNat_eq
    rw [toNat_eq_opcField hz]
    rw [decode, if_neg (not_not.mpr hz)] at h
    split at h <;> cases h <;> assumption
  · rw [decode, if_pos hz] at h
    cases h

theorem decode_eq_ok_iff {w : Word} {i : Instr} : decode w = .ok i ↔ w = encode i :=
  ⟨eq_encode_of_decode, fun h => h ▸ decode_encode i⟩

/-- A row of the opcode map on numbers: the `w` column and no other word (R52). -/
theorem decode_eq_ok_iff_toNat (w : Word) (i : Instr) : decode w = .ok i ↔ w.toNat = (encode i).toNat :=
  decode_eq_ok_iff.trans BitVec.toNat_inj.symm

/-- The words of the commands are 1 to 7 (R52). -/
theorem exists_toNat_encode_iff {n : Nat} : (∃ i, n = (encode i).toNat) ↔ 1 ≤ n ∧ n ≤ 7 := by
  constructor
  · rintro ⟨i, rfl⟩
    cases i <;> decide
  · rintro ⟨hlo, hhi⟩
    interval_cases n
    exacts [⟨.pack, rfl⟩, ⟨.unpack, rfl⟩, ⟨.crc, rfl⟩, ⟨.tenc, rfl⟩, ⟨.tdec, rfl⟩, ⟨.enckey, rfl⟩, ⟨.deckey, rfl⟩]

/-- The decoder is total: a word is an error exactly when it is no command. -/
theorem exists_decode_error_iff_not_ok {w : Word} : (∃ e, decode w = .error e) ↔ ¬ ∃ i, decode w = .ok i := by
  cases decode w <;> simp

/-- The illegal words are those outside 1 to 7 (R54). -/
theorem exists_decode_error_iff {w : Word} : (∃ e, decode w = .error e) ↔ w.toNat < 1 ∨ 7 < w.toNat := by
  rw [exists_decode_error_iff_not_ok]
  simp only [decode_eq_ok_iff_toNat, exists_toNat_encode_iff]
  omega

/-- Settles O2: a command's row is `decode_eq_ok_iff_toNat`, and the errors are the words no row names. -/
theorem opcodeMapIsComplete : Obligations.OpcodeMapIsComplete := by
  unfold Obligations.OpcodeMapIsComplete
  intro w
  have row := decode_eq_ok_iff_toNat w
  exact ⟨row .pack, row .unpack, row .crc, row .tenc, row .tdec, row .enckey, row .deckey, exists_decode_error_iff⟩

end Sys2Proof

namespace Sys2Proof.Machine

open Sys2Proof.SpecForm

/-- A write of `CMD` issues the word on the state the event is taken off (R51). -/
theorem step_writeWord_cmd (w : Word) (rest : List HostEvent) (s : State) :
    step (facing (writeWord 0x58 w) rest s) = issueCommand w (s.setPending rest) := by
  rw [writeWord, step_facing_write]
  exact memWrite_reg .cmd w _

theorem issueCommand_of_decode_error {w : Word} {e : DecodeError} (h : decode w = .error e) (s : State) :
    issueCommand w s = .next (s.raise .illegalCommand) := by
  rw [issueCommand, h]

/-- Settles O4: the word has no command, so the write raises `IllegalCommand`, whose `STATUS` word is 5 with `INFO` 0. -/
theorem illegalWordRaisesIllegalCommand : Obligations.IllegalWordRaisesIllegalCommand := by
  unfold Obligations.IllegalWordRaisesIllegalCommand
  intro s rest w hw
  obtain ⟨e, he⟩ := exists_decode_error_iff.mpr hw
  rw [step_writeWord_cmd, issueCommand_of_decode_error he, State.raise, statusWord_illegalCommand]
  rfl

end Sys2Proof.Machine
end

section
/-! Proofs for 40_field_packer.md. The checksum and the packed integer in the spec's numbers, then what PACK, ENCKEY and UNPACK
answer. -/

namespace Sys2Proof.Machine

open Sys2Proof.SpecForm

/-! ## The checksum on numbers -/

theorem crcBits_toNat (k : Nat) (x : CrcWord) : (crcBits k x).toNat = crcBitNum^[k] x.toNat := by
  induction k generalizing x with
  | zero => rfl
  | succ k ih => rw [crcBits, ih, Function.iterate_succ_apply, crcBit_toNat, crcBitNum]

/-- A byte at bits 31:24 of the register as a product: it needs no truncation (41_checksum_unit.md R78). -/
theorem setWidth_shiftLeft_24_toNat (b : Byte) : (b.setWidth 32 <<< 24).toNat = b.toNat * 2 ^ 24 := by
  have hb : b.toNat < 2 ^ 8 := b.isLt
  rw [BitVec.toNat_shiftLeft, BitVec.toNat_setWidth, Nat.shiftLeft_eq]
  omega

theorem crcByte_toNat (x : CrcWord) (b : Byte) : (crcByte x b).toNat = crcByteNum x.toNat b.toNat := by
  rw [crcByte, crcBits_toNat, BitVec.toNat_xor, setWidth_shiftLeft_24_toNat, crcByteNum]

/-- The register after the 16 bytes, bits 7:0 first (R79): `toNat` commutes with every byte step. -/
theorem crcReg_toNat (v : PackedWord) : (crcReg v).toNat = crcRegNum v.toNat := by
  rw [crcReg, le16, List.foldl_map, crcRegNum]
  refine (List.foldl_hom BitVec.toNat fun x i => ?_).symm
  rw [crcByte_toNat, BitVec.extractLsb'_toNat, Nat.shiftRight_eq_div_pow]

theorem crc10_toNat_eq_crc10Num (v : PackedWord) : (crc10 v).toNat = crc10Num v.toNat := by
  rw [crc10_toNat, crcReg_toNat, crc10Num]

/-! ## The field registers as a field set -/

theorem fieldSet_inBounds {s : State} (h : FieldsInBounds s) : s.fieldSet.InBounds := by
  obtain ⟨hgroup, hserial, hsecurity, hpos, hchecksum, hupgrade, hextra⟩ := h
  exact ⟨hgroup, hserial, hsecurity, hpos, hchecksum, hupgrade, hextra⟩

theorem partialPack_fieldSet {s : State} (h : FieldsInBounds s) : partialPack s.fieldSet = partialSum s :=
  partialPack_eq_sum (fieldSet_inBounds h)

theorem partialSum_lt {s : State} (h : FieldsInBounds s) : partialSum s < 2 ^ 115 := by
  obtain ⟨hgroup, hserial, hsecurity, -, -, hupgrade, hextra⟩ := h
  rw [partialSum]
  omega

/-- The checksum used, in numbers (R64): the partial integer fits the 128 bits the CRC runs over. -/
theorem checksumUsed_fieldSet {s : State} (h : FieldsInBounds s) : checksumUsed s.fieldSet = usedChecksum s := by
  have hfit : (BitVec.ofNat 128 (partialSum s)).toNat = partialSum s := by
    rw [BitVec.toNat_ofNat, Nat.mod_eq_of_lt ((partialSum_lt h).trans (by decide))]
  rw [checksumUsed, partialPack_fieldSet h, crc10_toNat_eq_crc10Num, hfit]
  rfl

theorem finalPack_fieldSet {s : State} (h : FieldsInBounds s) : finalPack s.fieldSet = packedSum s := by
  rw [finalPack_eq_sum (fieldSet_inBounds h), partialPack_fieldSet h, checksumUsed_fieldSet h, packedSum]

/-! ## What Pack answers for the field registers -/

theorem packFields_of_firstOutOfBounds {f : FieldSet} {g : Field} (h : firstOutOfBounds f = some g) :
    packFields f = .error (.outOfBounds g) := by
  rw [packFields, h]

/-- `CheckBounds` on the registers, read in the order of R62. -/
theorem firstOutOfBounds_fieldSet (s : State) :
    firstOutOfBounds s.fieldSet =
      if 0xFFFFF < s.group.toNat then some .group
      else if 0x3FFFFFFF < s.serial.toNat then some .serial
      else if 0x1FFFFFFFFFFFFF < s.security.toNat then some .security
      else if s.checksum.toNat = 0 ∨ 1024 < s.checksum.toNat then some .checksum
      else if 1 < s.upgrade.toNat then some .upgrade
      else if 1 < s.extra.toNat then some .extra
      else none := rfl

/-- Within the bounds Pack fails exactly when EXTRA is not 0 and the integer is over `LIMIT` = 24^25 (R67). -/
theorem packFields_fieldSet {s : State} (h : FieldsInBounds s) :
    packFields s.fieldSet = if s.extra.toNat ≠ 0 ∧ 24 ^ 25 < packedSum s then .error .unencodable
      else .ok (packedSum s, usedChecksum s) := by
  rw [packFields, (firstOutOfBounds_eq_none_iff _).mpr (fieldSet_inBounds h), finalPack_fieldSet h,
    checksumUsed_fieldSet h, limit_eq]
  rfl

theorem packFields_fieldSet_unencodable {s : State} (h : FieldsInBounds s) (hextra : s.extra.toNat ≠ 0)
    (hlimit : 24 ^ 25 < packedSum s) : packFields s.fieldSet = .error .unencodable := by
  rw [packFields_fieldSet h, if_pos ⟨hextra, hlimit⟩]

theorem packFields_fieldSet_ok {s : State} (h : FieldsInBounds s)
    (henc : s.extra.toNat = 0 ∨ packedSum s ≤ 24 ^ 25) :
    packFields s.fieldSet = .ok (packedSum s, usedChecksum s) := by
  rw [packFields_fieldSet h, if_neg (by omega)]

/-! ## PACK and ENCKEY from Pack's answer -/

/-- An error of Pack is raised by PACK and ENCKEY alike: neither has written anything (60_exceptions.md R113). -/
theorem exec_of_packFields_error {i : Instr} (hi : i = .pack ∨ i = .enckey) {s : State} {e : CodecError}
    (h : packFields s.fieldSet = .error e) : exec i s = .next (s.raise e) := by
  rcases hi with rfl | rfl
  · calc exec .pack s = finish s ((packFields s.fieldSet).map fun r => s.setPackResult r) := rfl
      _ = .next (s.raise e) := by rw [h]; exact finish_error s e
  · calc exec .enckey s = finish s (enckeyResult Config.alphabet s) := rfl
      _ = .next (s.raise e) := by rw [enckeyResult, h]; exact finish_error s e

/-- PACK and ENCKEY name the first field out of bounds (R62, 60_exceptions.md R110). -/
theorem exec_of_firstOutOfBounds {i : Instr} (hi : i = .pack ∨ i = .enckey) {s : State} {f : Field}
    (h : firstOutOfBounds s.fieldSet = some f) :
    exec i s = .next { s with status := BitVec.ofNat 64 (1 + 256 * f.index) } := by
  rw [exec_of_packFields_error hi (packFields_of_firstOutOfBounds h), State.raise, statusWord_outOfBounds]
  rfl

/-- PACK's three writes as one update of the state (R68). -/
theorem State.setPackResult_setStatus (s : State) (r : Nat × Nat) (v : Word) :
    (s.setPackResult r).setStatus v =
      { s with packed := BitVec.ofNat 128 r.1, csused := BitVec.ofNat 64 r.2, status := v } := rfl

theorem exec_pack_of_packFields_ok {s : State} {r : Nat × Nat} (h : packFields s.fieldSet = .ok r) :
    exec .pack s = .next ((s.setPackResult r).setStatus statusOk) := by
  calc exec .pack s = finish s ((packFields s.fieldSet).map fun r => s.setPackResult r) := rfl
    _ = .next ((s.setPackResult r).setStatus statusOk) := by rw [h]; exact finish_ok s _

/-- ENCKEY succeeds wherever Pack does: what Pack answers has a key (43_key_commands.md R105). -/
theorem exec_enckey_of_packFields_ok {s : State} {r : Nat × Nat} (h : packFields s.fieldSet = .ok r) :
    ∃ k, encodeText Config.alphabet r.1 = .ok k ∧
      exec .enckey s = .next (((s.setPackResult r).setKeyText k).setStatus statusOk) := by
  obtain ⟨t, ht⟩ := exec_answers .enckey s
  obtain ⟨e, he, -⟩ | ⟨r', k, hr, hk, rfl⟩ := execEnckey_cases ht
  · rw [h] at he
    cases he
  · rw [h] at hr
    cases hr
    exact ⟨k, hk, ht⟩

/-! ## The obligations -/

/-- Settles O32: the hypotheses of each clause decide the tests of `CheckBounds` up to the one that names its field. -/
theorem outOfBoundsNamesTheFirstField : Obligations.OutOfBoundsNamesTheFirstField := by
  unfold Obligations.OutOfBoundsNamesTheFirstField
  intro i s hi
  refine ⟨fun hgroup => ?_, fun hgroup hserial => ?_, fun hgroup hserial hsecurity => ?_,
    fun hgroup hserial hsecurity hchecksum => ?_, fun hgroup hserial hsecurity hpos hchecksum hupgrade => ?_,
    fun hgroup hserial hsecurity hpos hchecksum hupgrade hextra => ?_⟩
  · exact exec_of_firstOutOfBounds hi (f := .group) (by rw [firstOutOfBounds_fieldSet, if_pos hgroup])
  · exact exec_of_firstOutOfBounds hi (f := .serial) (by
      rw [firstOutOfBounds_fieldSet, if_neg hgroup.not_gt, if_pos hserial])
  · exact exec_of_firstOutOfBounds hi (f := .security) (by
      rw [firstOutOfBounds_fieldSet, if_neg hgroup.not_gt, if_neg hserial.not_gt, if_pos hsecurity])
  · exact exec_of_firstOutOfBounds hi (f := .checksum) (by
      rw [firstOutOfBounds_fieldSet, if_neg hgroup.not_gt, if_neg hserial.not_gt, if_neg hsecurity.not_gt,
        if_pos hchecksum])
  · exact exec_of_firstOutOfBounds hi (f := .upgrade) (by
      rw [firstOutOfBounds_fieldSet, if_neg hgroup.not_gt, if_neg hserial.not_gt, if_neg hsecurity.not_gt,
        if_neg (by omega), if_pos hupgrade])
  · exact exec_of_firstOutOfBounds hi (f := .extra) (by
      rw [firstOutOfBounds_fieldSet, if_neg hgroup.not_gt, if_neg hserial.not_gt, if_neg hsecurity.not_gt,
        if_neg (by omega), if_neg hupgrade.not_gt, if_pos hextra])

/-- Settles O33: Pack answers the field sum and the checksum used, and PACK stores the two. -/
theorem packStoresTheFieldSum : Obligations.PackStoresTheFieldSum := by
  unfold Obligations.PackStoresTheFieldSum
  intro s hin henc
  rw [exec_pack_of_packFields_ok (packFields_fieldSet_ok hin henc), State.setPackResult_setStatus, statusOk]

/-- Settles O34: within the bounds Pack answers `Unencodable` or a result by the one test of R67, and both commands follow
Pack. -/
theorem unencodableAboveTheLimit : Obligations.UnencodableAboveTheLimit := by
  unfold Obligations.UnencodableAboveTheLimit
  intro i s hi hin
  constructor
  · intro hextra hlimit
    exact exec_of_packFields_error hi (packFields_fieldSet_unencodable hin hextra hlimit)
  · intro henc
    have hpack := packFields_fieldSet_ok hin henc
    rcases hi with rfl | rfl
    · exact ⟨_, exec_pack_of_packFields_ok hpack, rfl⟩
    · obtain ⟨k, -, hk⟩ := exec_enckey_of_packFields_ok hpack
      exact ⟨_, hk, rfl⟩

/-- Settles O36: UNPACK stores the fields as quotients and remainders of PACKED, and has no error to raise. -/
theorem unpackExtractsTheFields : Obligations.UnpackExtractsTheFields := by
  unfold Obligations.UnpackExtractsTheFields
  intro s
  calc exec .unpack s = .next ((s.setFieldSet (unpackFields s.packed.toNat)).setStatus statusOk) := execUnpack_eq s
    _ = .next { withFieldsOf s.packed.toNat s with status := 0#64 } := by rw [unpackFields_eq]; rfl

end Sys2Proof.Machine
end

section
/-! Proofs for 41_checksum_unit.md. The byte step, and what CRC stores, in the spec's numbers. -/

namespace Sys2Proof.Machine

open Sys2Proof.SpecForm

/-- The value CRC puts in `CRCOUT`, the 10-bit checksum widened to the register, in numbers (R80, R82). -/
theorem crc10_setWidth_eq_ofNat (v : PackedWord) : (crc10 v).setWidth 64 = BitVec.ofNat 64 (crc10Num v.toNat) := by
  rw [← BitVec.ofNat_toNat, crc10_toNat_eq_crc10Num]

/-- CRC's two writes as one update of the state (R82). -/
theorem State.setCrcout_setStatus (s : State) (v w : Word) :
    (s.setCrcout v).setStatus w = { s with crcout := v, status := w } := rfl

/-- Settles O58: `toNat` takes the byte's XOR and each of the eight bit steps to their numbers. -/
theorem crcByteIsEightPolynomialSteps : Obligations.CrcByteIsEightPolynomialSteps := by
  unfold Obligations.CrcByteIsEightPolynomialSteps
  exact crcByte_toNat

/-- Settles O39: CRC has no error to raise, and the checksum it stores is the one in numbers. -/
theorem crcStoresTheComplementedLowBits : Obligations.CrcStoresTheComplementedLowBits := by
  unfold Obligations.CrcStoresTheComplementedLowBits
  intro s
  calc exec .crc s = .next ((s.setCrcout ((crc10 s.packed).setWidth 64)).setStatus statusOk) := execCrc_eq s
    _ = .next { s with crcout := BitVec.ofNat 64 (crc10Num s.packed.toNat), status := 0#64 } := by
      rw [crc10_setWidth_eq_ofNat, State.setCrcout_setStatus, statusOk]

end Sys2Proof.Machine
end

section
/-! Proofs for 42_text_transform.md. The digits as a sum, the key character by character, then what TENC, TDEC and DECKEY
answer. -/

namespace Sys2Proof.Machine

open Sys2Proof.SpecForm

/-! ## The digits -/

theorem digits_length (n : Nat) : (digits n).length = 25 :=
  expandDigits_length 24 n

theorem digits_getElem? (n : Nat) {i : Nat} (h : i < 24) : (digits n)[i]? = some (n / 24 ^ i % 24) :=
  expandDigits_get 24 n h

theorem digits_getD (n : Nat) {i : Nat} (h : i < 24) : (digits n).getD i 0 = n / 24 ^ i % 24 := by
  rw [List.getD_eq_getElem?_getD, digits_getElem? n h, Option.getD_some]

/-- The loop of R88 loses nothing: each round takes a digit off the quotient left by the rounds before. -/
theorem eq_quotient_add_digit_sum (k n : Nat) :
    n = n / 24 ^ k * 24 ^ k + ((List.range k).map fun i => n / 24 ^ i % 24 * 24 ^ i).sum := by
  induction k with
  | zero => simp
  | succ k ih =>
    have hround : n / 24 ^ k = n / 24 ^ (k + 1) * 24 + n / 24 ^ k % 24 := by
      rw [Nat.pow_succ, ← Nat.div_div_eq_div_mul, Nat.div_add_mod']
    calc n = n / 24 ^ k * 24 ^ k + ((List.range k).map fun i => n / 24 ^ i % 24 * 24 ^ i).sum := ih
      _ = (n / 24 ^ (k + 1) * 24 + n / 24 ^ k % 24) * 24 ^ k +
          ((List.range k).map fun i => n / 24 ^ i % 24 * 24 ^ i).sum := by rw [← hround]
      _ = n / 24 ^ (k + 1) * 24 ^ (k + 1) + ((List.range (k + 1)).map fun i => n / 24 ^ i % 24 * 24 ^ i).sum := by
          rw [List.range_succ, List.map_append, List.sum_append, List.map_singleton, List.sum_singleton]
          ring

/-- The domain is inclusive, so the top digit reaches 24 (R87, R88). -/
theorem topQuotient_le {n : Nat} (h : n ≤ 24 ^ 25) : n / 24 ^ 24 ≤ 24 := by
  omega

/-- Settles O42: the entries are those of the digit loop, which loses nothing. -/
theorem digitsExpandTheInteger : Obligations.DigitsExpandTheInteger := by
  unfold Obligations.DigitsExpandTheInteger
  intro n hn
  refine ⟨digits_length n, fun i hi => digits_getElem? n hi, expandDigits_top 24 n, topQuotient_le hn,
    fun htop => by omega, ?_⟩
  have hdigits : ((List.range 24).map fun i => (digits n).getD i 0 * 24 ^ i) =
      (List.range 24).map fun i => n / 24 ^ i % 24 * 24 ^ i :=
    List.map_congr_left fun i hi => by rw [digits_getD n (List.mem_range.mp hi)]
  rw [hdigits]
  exact eq_quotient_add_digit_sum 24 n

/-! ## The key character by character -/

/-- Body character `j` is the symbol of digit `23 - j` (R89). -/
theorem renderBody_getElem? (a : List Byte) (n : Nat) {j : Nat} (h : j < 24) :
    (renderBody a (digits n))[j]? = some (symbolAt a (n / 24 ^ (23 - j) % 24)) := by
  have hl : ((digits n).take 24).length = 24 := by rw [List.length_take, digits_length]; rfl
  rw [renderBody, Config.bodyLen, List.getElem?_map, List.getElem?_reverse (by omega), hl,
    List.getElem?_take_of_lt (by omega), digits_getElem? n (by omega)]
  rfl

/-- The marker stands at its position, and what follows it is moved up by one (R90). -/
theorem insertMarker_getElem? {p : Nat} {body : List Byte} (hp : p ≤ body.length) (j : Nat) :
    (insertMarker p body)[j]? =
      if j = p then some Config.marker else body[if j < p then j else j - 1]? := by
  have hl : (body.take p).length = p := by rw [List.length_take, Nat.min_eq_left hp]
  rw [insertMarker, List.append_assoc]
  rcases Nat.lt_trichotomy j p with hj | rfl | hj
  · rw [if_neg (by omega), if_pos hj, List.getElem?_append_left (by omega), List.getElem?_take_of_lt hj]
  · rw [if_pos rfl, List.getElem?_append_right (by omega), hl, Nat.sub_self]
    rfl
  · rw [if_neg (by omega), if_neg (by omega), List.getElem?_append_right (by omega), hl, List.singleton_append,
      List.getElem?_cons, if_neg (by omega), List.getElem?_drop]
    congr 1
    omega

/-- The first `m` characters of `key` are `content` in groups of five with a dash after each (R91). -/
def GroupedInFives (content key : List Byte) (m : Nat) : Prop :=
  ∀ k, k < m → key[k]? = if k % 6 = 5 then some Config.dash else content[k - k / 6]?

theorem groupedInFives_last (content : List Byte) : GroupedInFives content (content.take 5) 5 := by
  intro k hk
  rw [if_neg (by omega), List.getElem?_take_of_lt hk]
  congr 1
  omega

/-- A group and its dash before the groups of the rest of the content. -/
theorem groupedInFives_cons {content rest : List Byte} {m : Nat} (hl : 5 ≤ content.length)
    (hrest : GroupedInFives (content.drop 5) rest m) :
    GroupedInFives content (content.take 5 ++ Config.dash :: rest) (m + 6) := by
  intro k hk
  have hl5 : (content.take 5).length = 5 := by rw [List.length_take, Nat.min_eq_left hl]
  rcases Nat.lt_trichotomy k 5 with h | rfl | h
  · rw [if_neg (by omega), List.getElem?_append_left (by omega), List.getElem?_take_of_lt h]
    congr 1
    omega
  · rw [if_pos rfl, List.getElem?_append_right (by omega), hl5]
    rfl
  · have hcontent : 5 + (k - 6 - (k - 6) / 6) = k - k / 6 := by omega
    have hmod : (k - 6) % 6 = k % 6 := by omega
    rw [List.getElem?_append_right (by omega), hl5, show k - 5 = k - 6 + 1 by omega, List.getElem?_cons_succ,
      hrest (k - 6) (by omega), List.getElem?_drop, hcontent, hmod]

/-- `Dashed` is four groups with a dash and a last one without (R91). -/
theorem groupedInFives_dashed {content : List Byte} (hl : content.length = 25) :
    GroupedInFives content (dashed content) 29 := by
  have hlast := groupedInFives_last (content.drop 20)
  have h15 := groupedInFives_cons (content := content.drop 15) (by simp [hl]) (by rwa [List.drop_drop])
  have h10 := groupedInFives_cons (content := content.drop 10) (by simp [hl]) (by rwa [List.drop_drop])
  have h5 := groupedInFives_cons (content := content.drop 5) (by simp [hl]) (by rwa [List.drop_drop])
  have h0 := groupedInFives_cons (by omega) h5
  simpa only [dashed, List.append_assoc, List.cons_append, List.nil_append, Nat.reduceAdd] using h0

/-- The key before its dashes: the marker at the top digit's position, elsewhere the symbol of a digit in its turn (R89,
R90). -/
theorem insertMarker_renderBody_getElem? (a : List Byte) {n j : Nat} (hn : n ≤ 24 ^ 25) (hj : j < 25) :
    (insertMarker (n / 24 ^ 24) (renderBody a (digits n)))[j]? = some (
      if j = n / 24 ^ 24 then Config.marker
      else symbolAt a (n / 24 ^ (23 - (if j < n / 24 ^ 24 then j else j - 1)) % 24)) := by
  have htop := topQuotient_le hn
  rw [insertMarker_getElem? (by rwa [renderBody_length])]
  by_cases hp : j = n / 24 ^ 24
  · rw [if_pos hp, if_pos hp]
  · rw [if_neg hp, if_neg hp, renderBody_getElem? a n (by split <;> omega)]

/-- Character `k` of a key is `keyChar` (R88 to R91). -/
theorem dashed_insertMarker_getElem? (a : List Byte) {n k : Nat} (hn : n ≤ 24 ^ 25) (hk : k < 29) :
    (dashed (insertMarker (n / 24 ^ 24) (renderBody a (digits n))))[k]? = some (keyChar a n k) := by
  have hl : (insertMarker (n / 24 ^ 24) (renderBody a (digits n))).length = 25 := by
    rw [insertMarker_length, renderBody_length]
  have hdash : k % 6 = 5 ↔ k = 5 ∨ k = 11 ∨ k = 17 ∨ k = 23 := by omega
  rw [groupedInFives_dashed hl k hk, keyChar, insertMarker_renderBody_getElem? a hn (by omega)]
  simp only [hdash]
  split <;> rfl

/-- Up to `LIMIT` Encode answers the 29 characters of the key (R92). -/
theorem encodeText_of_le (a : List Byte) {n : Nat} (hn : n ≤ 24 ^ 25) :
    ∃ t, encodeText a n = .ok t ∧ t.length = 29 ∧ ∀ k, k < 29 → t[k]? = some (keyChar a n k) := by
  obtain ⟨hgt, -⟩ | ⟨-, hok⟩ := encodeText_cases a n
  · rw [limit_eq] at hgt
    omega
  · exact ⟨_, hok, dashed_length (by rw [insertMarker_length, renderBody_length]),
      fun k hk => dashed_insertMarker_getElem? a hn hk⟩

/-- Above `LIMIT` Encode has no key (R87). -/
theorem encodeText_of_gt (a : List Byte) {n : Nat} (hn : 24 ^ 25 < n) : encodeText a n = .error .unencodable := by
  rw [encodeText, if_pos (by rwa [limit_eq])]

/-- Settles O43: Encode's key is read off character by character; the limit is 24^25. -/
theorem encodeTextCharByChar : Obligations.EncodeTextCharByChar := by
  unfold Obligations.EncodeTextCharByChar
  intro a n _
  exact ⟨encodeText_of_le a, encodeText_of_gt a⟩

/-! ## TENC -/

/-- The 32-byte buffer with a key laid into it: the key's characters, then three zeros (R93). -/
theorem padText_key_getElem {a t : List Byte} {n : Nat} (hl : t.length = 29)
    (hchars : ∀ k, k < 29 → t[k]? = some (keyChar a n k)) (k : Fin 32) :
    (padText t)[k] = if k.val < 29 then keyChar a n k.val else 0#8 := by
  rw [padText_get, List.getD_eq_getElem?_getD]
  by_cases hk : k.val < 29
  · rw [if_pos hk, hchars k.val hk, Option.getD_some]
  · rw [if_neg hk, List.getElem?_eq_none (by omega), Option.getD_none]

/-- TENC's three writes as one update of the state (R93). -/
theorem State.setKeyText_setStatus (s : State) (t : List Byte) (v : Word) :
    (s.setKeyText t).setStatus v = { s with text := padText t, textlen := 29#64, status := v } := by
  simp only [State.setKeyText, State.setText, State.setTextlen, State.setStatus, Config.keyLen]

theorem exec_tenc_of_encodeText_ok {s : State} {t : List Byte} (h : encodeText Config.alphabet s.packed.toNat = .ok t) :
    exec .tenc s = .next { s with text := padText t, textlen := 29#64, status := 0#64 } := by
  calc exec .tenc s = finish s ((encodeText Config.alphabet s.packed.toNat).map fun t => s.setKeyText t) := rfl
    _ = .next ((s.setKeyText t).setStatus statusOk) := by rw [h]; exact finish_ok s _
    _ = .next { s with text := padText t, textlen := 29#64, status := 0#64 } := by
      rw [State.setKeyText_setStatus, statusOk]

theorem exec_tenc_of_encodeText_error {s : State} {e : CodecError}
    (h : encodeText Config.alphabet s.packed.toNat = .error e) : exec .tenc s = .next (s.raise e) := by
  calc exec .tenc s = finish s ((encodeText Config.alphabet s.packed.toNat).map fun t => s.setKeyText t) := rfl
    _ = .next (s.raise e) := by rw [h]; exact finish_error s e

/-- Settles O45: TENC follows Encode on PACKED, and `Unencodable` is STATUS 2 with `INFO` 0. -/
theorem tencWritesTheKeyUpToTheLimit : Obligations.TencWritesTheKeyUpToTheLimit := by
  unfold Obligations.TencWritesTheKeyUpToTheLimit
  intro s
  constructor
  · intro hle
    obtain ⟨t, hok, hl, hchars⟩ := encodeText_of_le Config.alphabet hle
    exact ⟨padText t, exec_tenc_of_encodeText_ok hok, padText_key_getElem hl hchars⟩
  · intro hgt
    rw [exec_tenc_of_encodeText_error (encodeText_of_gt _ hgt), State.raise, statusWord_unencodable]
    rfl

/-! ## Decode in the statements' terms -/

theorem stripDashes_eq_contentOf (t : List Byte) : stripDashes t = contentOf t := rfl

theorem inputKey_of_textlen_gt (a : List Byte) {s : State} (h : 32 < s.textlen.toNat) :
    s.inputKey a = .error .malformedLength := by
  rw [inputKey_eq, if_pos h]

/-- A TEXTLEN the buffer has room for leaves the input text to Decode (R102). -/
theorem inputKey_of_textlen_le (a : List Byte) {s : State} (h : s.textlen.toNat ≤ 32) :
    s.inputKey a = decodeText a (inputOf s) := by
  rw [inputKey_eq, if_neg (by omega)]
  rfl

theorem decodeText_malformed (a : List Byte) {t : List Byte}
    (h : (contentOf t).length ≠ 25 ∨ (contentOf t).count 0x4E#8 ≠ 1) : decodeText a t = .error .malformedLength :=
  decodeContent_malformed a h

/-- The characters of a text that Decode examines: those beside the dashes and the marker, in their order (R97). -/
def symbolsOf (t : List Byte) : List Byte := (contentOf t).filter fun c => decide (c ≠ 0x4E#8)

theorem removeAt_markerPos_contentOf {t : List Byte} (h : WellShaped t) :
    removeAt (markerPos (contentOf t)) (contentOf t) = symbolsOf t :=
  removeAt_markerPos h.2

theorem symbolsOf_length {t : List Byte} (h : WellShaped t) : (symbolsOf t).length = 24 := by
  obtain ⟨hl, hm⟩ := h
  have hlt := markerPos_lt hm
  rw [← removeAt_markerPos_contentOf ⟨hl, hm⟩, removeAt, List.length_append, List.length_take, List.length_drop]
  omega

/-- A well-shaped text is the Horner value, from the marker's position on, of the indices of the other characters (R97 to
R99). -/
theorem decodeText_of_wellShaped (a : List Byte) {t : List Byte} (h : WellShaped t) :
    decodeText a t = (mapIndices a (symbolsOf t)).map (horner (markerPos (contentOf t))) := by
  rw [decodeText, stripDashes_eq_contentOf, decodeContent_of_wellShaped a h.1 h.2, removeAt_markerPos_contentOf h]

theorem mem_of_mem_symbolsOf {a t : List Byte} (h : ∀ c ∈ t, KnownChar a c) : ∀ c ∈ symbolsOf t, c ∈ a := by
  intro c hc
  rw [symbolsOf, List.mem_filter, contentOf, List.mem_filter, decide_eq_true_eq, decide_eq_true_eq] at hc
  obtain ⟨⟨ht, hdash⟩, hmarker⟩ := hc
  rcases h c ht with ha | hm | hd
  · exact ha
  · exact absurd hm hmarker
  · exact absurd hd hdash

/-- A foreign character is examined, and the order is kept. -/
theorem symbolsOf_append_cons {before after : List Byte} {c : Byte} (hmarker : c ≠ 0x4E#8) (hdash : c ≠ 0x2D#8) :
    symbolsOf (before ++ c :: after) = symbolsOf before ++ c :: symbolsOf after := by
  simp [symbolsOf, contentOf, hmarker, hdash]

/-- The leftmost foreign character of a text stays the leftmost one of the characters examined (R98). -/
theorem decodeText_foreign (a : List Byte) {before after : List Byte} {c : Byte}
    (hshape : WellShaped (before ++ c :: after)) (hbefore : ∀ x ∈ before, KnownChar a x) (hc : ¬ KnownChar a c) :
    decodeText a (before ++ c :: after) = .error (.invalidCharacter c) := by
  obtain ⟨ha, hmarker, hdash⟩ : c ∉ a ∧ c ≠ 0x4E#8 ∧ c ≠ 0x2D#8 := by rwa [KnownChar, not_or, not_or] at hc
  rw [decodeText_of_wellShaped a hshape, symbolsOf_append_cons hmarker hdash,
    mapIndices_append_foreign _ _ c (mem_of_mem_symbolsOf hbefore) ha]
  rfl

/-! ## TDEC and DECKEY where the text has no value -/

/-- An error of Decode is raised by TDEC and DECKEY alike (60_exceptions.md R113). -/
theorem exec_of_inputKey_error {i : Instr} (hi : i = .tdec ∨ i = .deckey) {s : State} {e : CodecError}
    (h : s.inputKey Config.alphabet = .error e) : exec i s = .next (s.raise e) := by
  rcases hi with rfl | rfl
  · exact exec_tdec_of_inputKey_error h
  · calc exec .deckey s =
          finish s ((s.inputKey Config.alphabet).map fun n => (s.setPackedNat n).setFieldSet (unpackFields n)) := rfl
      _ = .next (s.raise e) := by rw [h]; exact finish_error s e

/-- Each of the three ways to be malformed answers `MalformedLength`, whatever the characters (R96). -/
theorem inputKey_malformed (a : List Byte) {s : State}
    (h : 32 < s.textlen.toNat ∨ (contentOf (inputOf s)).length ≠ 25 ∨ (contentOf (inputOf s)).count 0x4E#8 ≠ 1) :
    s.inputKey a = .error .malformedLength := by
  by_cases hlen : 32 < s.textlen.toNat
  · exact inputKey_of_textlen_gt a hlen
  · rw [inputKey_of_textlen_le a (by omega)]
    exact decodeText_malformed a (h.resolve_left hlen)

/-- Settles O48: the malformed text's error is raised, and its STATUS word is 4 with `INFO` 0. -/
theorem malformedTextIsReportedFirst : Obligations.MalformedTextIsReportedFirst := by
  unfold Obligations.MalformedTextIsReportedFirst
  intro i s hi hbad
  rw [exec_of_inputKey_error hi (inputKey_malformed _ hbad), State.raise, statusWord_malformedLength]
  rfl

/-- Settles O49: Decode names the leftmost foreign character, and its code is the error's `INFO`. -/
theorem leftmostForeignCharacterIsReported : Obligations.LeftmostForeignCharacterIsReported := by
  unfold Obligations.LeftmostForeignCharacterIsReported
  intro i s before after c hi hlen hshape hinput hbefore hc
  have hkey : s.inputKey Config.alphabet = .error (.invalidCharacter c) := by
    rw [inputKey_of_textlen_le _ hlen, hinput]
    exact decodeText_foreign _ (hinput ▸ hshape) hbefore hc
  rw [exec_of_inputKey_error hi hkey, State.raise, statusWord_invalidCharacter]
  rfl

/-! ## TDEC where it has one -/

/-- Horner as a sum over positions: each value at its power of 24, the start `p` at the power of the length (R99). -/
theorem horner_map_eq_sum {α : Type} (f : α → Nat) (d : α) (p : Nat) (r : List α) :
    horner p (r.map f) =
      p * 24 ^ r.length + ((List.range r.length).map fun j => f (r.getD j d) * 24 ^ (r.length - 1 - j)).sum := by
  induction r generalizing p with
  | nil => simp [horner]
  | cons c r ih =>
    have hterm : ∀ j ∈ List.range r.length,
        f (r.getD j d) * 24 ^ (r.length - 1 - j) = f ((c :: r).getD (j + 1) d) * 24 ^ (r.length - (j + 1)) := by
      intro j _
      rw [List.getD_cons_succ, Nat.sub_sub, Nat.add_comm]
    calc horner p ((c :: r).map f) = horner (p * 24 + f c) (r.map f) := rfl
      _ = (p * 24 + f c) * 24 ^ r.length +
          ((List.range r.length).map fun j => f (r.getD j d) * 24 ^ (r.length - 1 - j)).sum := ih _
      _ = p * 24 ^ (r.length + 1) + (f c * 24 ^ r.length +
          ((List.range r.length).map fun j => f ((c :: r).getD (j + 1) d) * 24 ^ (r.length - (j + 1))).sum) := by
          rw [List.map_congr_left hterm, Nat.pow_succ']
          ring
      _ = p * 24 ^ (c :: r).length +
          ((List.range (c :: r).length).map fun j => f ((c :: r).getD j d) * 24 ^ ((c :: r).length - 1 - j)).sum := by
          rw [List.length_cons, List.range_succ_eq_map, List.map_cons, List.sum_cons, List.map_map]
          rfl

/-- A well-shaped text of known characters stands for its `textValue` (R99). -/
theorem decodeText_eq_textValue (a : List Byte) {t : List Byte} (hshape : WellShaped t)
    (hknown : ∀ c ∈ t, KnownChar a c) : decodeText a t = .ok (textValue a t) := by
  have hsum := horner_map_eq_sum a.idxOf 0#8 (markerPos (contentOf t)) (symbolsOf t)
  rw [symbolsOf_length hshape] at hsum
  rw [decodeText_of_wellShaped a hshape, mapIndices_of_subset _ (mem_of_mem_symbolsOf hknown)]
  exact congrArg Except.ok hsum

theorem exec_tdec_of_inputKey_ok {s : State} {n : Nat} (h : s.inputKey Config.alphabet = .ok n) :
    exec .tdec s = .next { s with packed := BitVec.ofNat 128 n, status := 0#64 } := by
  calc exec .tdec s = finish s ((s.inputKey Config.alphabet).map fun n => s.setPackedNat n) := rfl
    _ = .next ((s.setPackedNat n).setStatus statusOk) := by rw [h]; exact finish_ok s _

/-- Settles O50: Decode answers the text's value, and TDEC stores it. -/
theorem tdecStoresTheTextValue : Obligations.TdecStoresTheTextValue := by
  unfold Obligations.TdecStoresTheTextValue
  intro s hlen hshape hknown
  apply exec_tdec_of_inputKey_ok
  rw [inputKey_of_textlen_le _ hlen, decodeText_eq_textValue _ hshape hknown]

end Sys2Proof.Machine
end

section
/-! Proofs for 43_key_commands.md. DECKEY unpacks the decoded integer itself, UNPACK after TDEC what `PACKED` holds of it; the
fields lie below bit 115, so that both read the same. -/

namespace Sys2Proof.Machine

/-! ## DECKEY where the text has a value -/

/-- The six fields lie within the 128 bits of `PACKED` (10_state.md R15). -/
theorem unpackFields_mod_two_pow_128 (n : Nat) : unpackFields (n % 2 ^ 128) = unpackFields n := by
  simp only [unpackFields_eq, FieldSet.mk.injEq]
  omega

theorem exec_deckey_of_inputKey_ok {s : State} {n : Nat} (h : s.inputKey Config.alphabet = .ok n) :
    exec .deckey s = .next (((s.setPackedNat n).setFieldSet (unpackFields n)).setStatus statusOk) := by
  calc exec .deckey s =
        finish s ((s.inputKey Config.alphabet).map fun n => (s.setPackedNat n).setFieldSet (unpackFields n)) := rfl
    _ = .next (((s.setPackedNat n).setFieldSet (unpackFields n)).setStatus statusOk) := by rw [h]; exact finish_ok s _

/-- UNPACK reads a stored integer's own fields, whatever of it does not fit `PACKED` (40_field_packer.md R72). -/
theorem exec_unpack_setPackedNat (s : State) (n : Nat) (w : Word) :
    exec .unpack ((s.setPackedNat n).setStatus w) =
      .next (((s.setPackedNat n).setFieldSet (unpackFields n)).setStatus statusOk) := by
  have hread : unpackFields ((s.setPackedNat n).setStatus w).packedNat = unpackFields n :=
    calc unpackFields ((s.setPackedNat n).setStatus w).packedNat = unpackFields (n % 2 ^ 128) :=
          congrArg unpackFields (BitVec.toNat_ofNat n 128)
      _ = unpackFields n := unpackFields_mod_two_pow_128 n
  calc exec .unpack ((s.setPackedNat n).setStatus w) = .next ((((s.setPackedNat n).setStatus w).setFieldSet
          (unpackFields ((s.setPackedNat n).setStatus w).packedNat)).setStatus statusOk) := execUnpack_eq _
    _ = .next (((s.setPackedNat n).setFieldSet (unpackFields n)).setStatus statusOk) := by rw [hread]; rfl

/-- Settles O55: an error of Decode is raised by both commands; a decoded integer is stored by both, and unpacked alike. -/
theorem deckeyIsTdecThenUnpack : Obligations.DeckeyIsTdecThenUnpack := by
  unfold Obligations.DeckeyIsTdecThenUnpack
  intro s t h
  obtain ⟨e, he, rfl⟩ | ⟨n, hn, rfl⟩ := execTdec_cases h
  · exact ⟨fun _ => exec_of_inputKey_error (.inr rfl) he, fun hzero => absurd hzero (statusWord_ne_zero e)⟩
  · exact ⟨fun hne => absurd rfl hne,
      fun _ => (exec_deckey_of_inputKey_ok hn).trans (exec_unpack_setPackedNat s n statusOk).symm⟩

end Sys2Proof.Machine
end

section
/-! Proofs for 60_exceptions.md. An access of a register other than `CMD` or of a `TEXT` entry has no way to raise an error;
a command that fails has only `raise`. -/

namespace Sys2Proof.Machine

open Sys2Proof.SpecForm

/-! ## Accesses raise nothing -/

/-- A write that starts no command stores and judges nothing (R124). -/
theorem memWrite_keeps_status {off n : Nat} (h : Admitted off n) (hcmd : off ≠ 0x58) (v : BitVec (8 * n)) (s : State) :
    ∃ t, memWrite off n v s = .next t ∧ t.status = s.status := by
  obtain ⟨r, rfl, rfl⟩ | ⟨i, rfl, rfl⟩ := reg_or_text_of_admitted h
  · have hr : r ≠ .cmd := fun hr => hcmd (congrArg Reg.offset hr)
    exact ⟨_, (memWrite_reg r v s).trans (writeReg_of_ne_cmd hr v s), s.storeReg_status r v⟩
  · exact ⟨_, memWrite_text i v s, State.setTextByte_status s i v⟩

theorem memRead_keeps_status {off n : Nat} (h : Admitted off n) (s : State) :
    ∃ t, memRead off n s = .next t ∧ t.status = s.status := by
  obtain ⟨r, rfl, rfl⟩ | ⟨i, rfl, rfl⟩ := reg_or_text_of_admitted h
  · exact ⟨_, memRead_reg r s, State.observe_status s _⟩
  · exact ⟨_, memRead_text i s, State.observe_status s _⟩

/-- Settles O14: a step on an access is the access, which keeps STATUS where it names a port other than `CMD` and is
refused where it names none. -/
theorem accessesThemselvesRaiseNothing : Obligations.AccessesThemselvesRaiseNothing := by
  unfold Obligations.AccessesThemselvesRaiseNothing
  intro s rest off n v
  rw [step_facing_write, step_facing_readAt]
  exact ⟨fun h => ⟨fun hcmd => memWrite_keeps_status h hcmd v _, memRead_keeps_status h _⟩,
    fun h => ⟨⟨_, memWrite_of_not_admitted h v _⟩, ⟨_, memRead_of_not_admitted h _⟩⟩⟩

/-! ## A failed command -/

/-- Every command ends through `finish`: it has either an error to raise on the state before it or all its writes
(R113, R119). -/
theorem exec_eq_finish (i : Instr) (s : State) : ∃ r : Except CodecError State, exec i s = finish s r := by
  cases i with
  | pack => exact ⟨_, rfl⟩
  | unpack => exact ⟨.ok (s.setFieldSet (unpackFields s.packedNat)), rfl⟩
  | crc => exact ⟨.ok (s.setCrcout ((crc10 s.packed).setWidth 64)), rfl⟩
  | tenc => exact ⟨_, rfl⟩
  | tdec => exact ⟨_, rfl⟩
  | enckey => exact ⟨_, rfl⟩
  | deckey => exact ⟨_, rfl⟩

/-- A command that leaves a STATUS other than 0 has raised an error on the state before it (R113). -/
theorem exec_failed {i : Instr} {s t : State} (h : exec i s = .next t) (hne : t.status ≠ 0#64) :
    ∃ e : CodecError, t = s.raise e := by
  obtain ⟨r, hr⟩ := exec_eq_finish i s
  obtain ⟨e, -, rfl⟩ | ⟨u, -, rfl⟩ := finish_cases (hr.symm.trans h)
  · exact ⟨e, rfl⟩
  · exact absurd (State.setStatus_status u statusOk) hne

/-- Settles O25: the only way to fail is to raise an error, which replaces STATUS by the error's word. -/
theorem failedCommandChangesOnlyStatus : Obligations.FailedCommandChangesOnlyStatus := by
  unfold Obligations.FailedCommandChangesOnlyStatus
  intro i s t h hne
  obtain ⟨e, rfl⟩ := exec_failed h hne
  exact ⟨e, e.info_le_255, rfl⟩

end Sys2Proof.Machine
end

section
/-! Further proofs for 30_encoding.md. The encoder against the decoder, and the step on a `CMD` write. -/

namespace Sys2Proof.Machine

open Sys2Proof.SpecForm

/-- Settles O3: the two directions of `decode_eq_ok_iff`. -/
theorem decodeAndEncodeAgree : Obligations.DecodeAndEncodeAgree := by
  unfold Obligations.DecodeAndEncodeAgree
  exact ⟨fun i _ => decode_encode i, fun _ _ => eq_encode_of_decode⟩

/-- Settles O1: each word of the `w` column is its command's encoding. -/
theorem opcodeMapWordsDecode : Obligations.OpcodeMapWordsDecode := by
  unfold Obligations.OpcodeMapWordsDecode
  exact ⟨decode_encode .pack, decode_encode .unpack, decode_encode .crc, decode_encode .tenc, decode_encode .tdec,
    decode_encode .enckey, decode_encode .deckey⟩

theorem issueCommand_of_decode_ok {w : Word} {i : Instr} (h : decode w = .ok i) (s : State) :
    issueCommand w s = exec i s := by
  rw [issueCommand, h]

/-- Settles O5: the write of `CMD` issues the word, and the word it decodes to runs. -/
theorem stepRunsTheDecodedCommand : Obligations.StepRunsTheDecodedCommand := by
  unfold Obligations.StepRunsTheDecodedCommand
  intro s rest w i h
  rw [step_writeWord_cmd, issueCommand_of_decode_ok h]
  rfl

/-- The offset of a register is an admitted place for 8 bytes (20_memory.md R36). -/
theorem admitted_reg_offset (r : Reg) : admitted r.offset 8 = true := by
  rw [← portAt_isSome_eq_admitted, portAt_offset]
  rfl

/-- The offset of a `TEXT` entry is an admitted place for 1 byte (20_memory.md R36). -/
theorem admitted_text_offset (i : Fin 32) : admitted (0x80 + i.val) 1 = true := by
  rw [← portAt_isSome_eq_admitted, portAt_text]
  rfl

theorem commandStmt_wf (i : Instr) : (commandStmt i).wf = true := by
  cases i <;> decide

/-- Settles O19: every form of statement accesses a register or a `TEXT` entry at its own offset, and a command's statement
writes its encoding to `CMD`. -/
theorem statementsAreAdmittedAccesses : Obligations.StatementsAreAdmittedAccesses := by
  unfold Obligations.StatementsAreAdmittedAccesses
  refine ⟨fun x _ => ?_, fun i s rest => ⟨commandStmt_wf i, stepRunsTheDecodedCommand s rest _ i (decode_encode i)⟩⟩
  cases x with
  | wr r v => exact admitted_reg_offset r
  | wrb i c => exact admitted_text_offset i
  | rd r => exact admitted_reg_offset r
  | rdb i => exact admitted_text_offset i
  | issue w => exact admitted_reg_offset .cmd

end Sys2Proof.Machine
end

section
/-! Further proofs for 20_memory.md and 70_reset_and_hazards.md section 3. The step on each kind of event, and that a register
or `TEXT` entry is stored alone. -/

namespace Sys2Proof.Machine

open Sys2Proof.SpecForm

/-! ## One event -/

/-- Settles O6: `step_nil`. -/
theorem idleStepChangesNothing : Obligations.IdleStepChangesNothing := by
  unfold Obligations.IdleStepChangesNothing
  exact fun _ => step_nil

/-- Settles O17: the step serves the event, and a second host's access is served by a refusal. -/
theorem secondHostIsRefused : Obligations.SecondHostIsRefused := by
  unfold Obligations.SecondHostIsRefused
  exact fun s rest a => step_facing (.otherHost a) rest s

/-- Settles O21: the step serves the reset on the state the event is taken off. -/
theorem resetEventReplacesEveryRegister : Obligations.ResetEventReplacesEveryRegister := by
  unfold Obligations.ResetEventReplacesEveryRegister
  exact fun s rest => step_facing .reset rest s

/-- Settles O8: each offset is that of a register other than `CMD`, which is stored whole. -/
theorem fieldAndLengthWritesStore : Obligations.FieldAndLengthWritesStore := by
  unfold Obligations.FieldAndLengthWritesStore
  intro s rest v
  have store := fun (r : Reg) (h : r ≠ .cmd) => step_writeWord_of_ne_cmd h v rest s
  exact ⟨store (.field .group) (by decide), store (.field .serial) (by decide), store (.field .security) (by decide),
    store (.field .checksum) (by decide), store (.field .upgrade) (by decide), store (.field .extra) (by decide),
    store .textlen (by decide)⟩

/-- Settles O9: the three offsets are those of the read-only registers, which store nothing. -/
theorem readOnlyWritesAreIgnored : Obligations.ReadOnlyWritesAreIgnored := by
  unfold Obligations.ReadOnlyWritesAreIgnored
  rintro s rest v off (rfl | rfl | rfl)
  · exact step_writeWord_of_ne_cmd (r := .csused) (by decide) v rest s
  · exact step_writeWord_of_ne_cmd (r := .crcout) (by decide) v rest s
  · exact step_writeWord_of_ne_cmd (r := .status) (by decide) v rest s

/-- The registers that are read whole: all but the halves of `PACKED` (R37, R40). -/
def wholeRegs : List Reg :=
  [.field .group, .field .serial, .field .security, .field .checksum, .field .upgrade, .field .extra,
    .csused, .crcout, .status, .cmd, .textlen]

/-- Settles O12: the pairs listed are the registers' offsets and what a load of them returns. -/
theorem readsReturnTheRegister : Obligations.ReadsReturnTheRegister := by
  unfold Obligations.ReadsReturnTheRegister
  intro s rest off v h
  have hpair : (off, v) ∈ wholeRegs.map fun r => (r.offset, s.loadReg r) := h
  obtain ⟨r, -, hr⟩ := List.mem_map.mp hpair
  obtain ⟨rfl, rfl⟩ := Prod.mk.inj hr
  exact step_readAt_reg r rest s

/-! ## One register or `TEXT` entry alone -/

theorem text_set_getElem (T : Vector Byte 32) (i k : Fin 32) (c : Byte) :
    (T.set i c)[k] = if k = i then c else T[k] := by
  rw [Fin.getElem_fin, Fin.getElem_fin, Vector.getElem_set]
  simp only [Fin.ext_iff, eq_comm]

/-- Settles O11: the access is of `TEXT[i]`, and `Vector.set` changes that entry alone. -/
theorem textIsAccessedByteByByte : Obligations.TextIsAccessedByteByByte := by
  unfold Obligations.TextIsAccessedByteByByte
  intro s rest c i
  constructor
  · exact ⟨s.text.set i c, (step_facing_write _ 1 c rest s).trans (memWrite_text i c _),
      fun k => text_set_getElem s.text i k c⟩
  · exact (step_facing_readAt _ 1 rest s).trans (memRead_text i _)

theorem Reg.ne_cmd_of_writable {r : Reg} (h : r.writable = true) : r ≠ .cmd := by
  rintro rfl
  cases h

/-- What every register reads after a store to a writable one (10_state.md R32). -/
theorem State.loadReg_storeReg (s : State) {r : Reg} (v : Word) (h : r.writable = true) (q : Reg) :
    (s.storeReg r v).loadReg q = if q = r then v else s.loadReg q := by
  by_cases hq : q = r
  · rw [if_pos hq, hq]
    exact s.loadReg_storeReg_self v h
  · rw [if_neg hq]
    exact s.loadReg_storeReg_of_ne v hq

@[simp] theorem State.loadReg_setTextByte (s : State) (i : Fin 32) (c : Byte) (r : Reg) :
    (s.setTextByte i c).loadReg r = s.loadReg r := by
  cases r with
  | field f => cases f <;> rfl
  | _ => rfl

/-- Settles O13: the write stores the register, and what is read after a store is known register by register. -/
theorem writesReachOneRegisterOnly : Obligations.WritesReachOneRegisterOnly := by
  unfold Obligations.WritesReachOneRegisterOnly
  intro s t rest v r hr h
  obtain rfl := Host.Outcome.next.inj ((step_writeWord_of_ne_cmd (Reg.ne_cmd_of_writable hr) v rest s).symm.trans h)
  refine ⟨State.loadReg_storeReg_self _ v hr, fun r' hr' => ?_, State.storeReg_text _ r v⟩
  rw [State.loadReg_storeReg_of_ne _ v hr', State.loadReg_setPending]

/-! ## Two writes in either order -/

theorem packedHi_append_packedLo (s : State) : s.packedHi ++ s.packedLo = s.packed := by
  apply BitVec.eq_of_toNat_eq
  rw [append_toNat, State.packedHi_toNat, State.packedLo_toNat]
  omega

/-- What the host can read, and its two lists, are the whole state. -/
theorem State.eq_of_loadReg_eq {s t : State} (hreg : ∀ r, s.loadReg r = t.loadReg r) (htext : s.text = t.text)
    (hpending : s.pending = t.pending) (hobserved : s.observed = t.observed) : s = t := by
  have hpacked : s.packed = t.packed := by
    rw [← packedHi_append_packedLo s, ← packedHi_append_packedLo t]
    exact congrArg₂ (· ++ ·) (hreg .packedHi) (hreg .packedLo)
  have hgroup : s.group = t.group := hreg (.field .group)
  have hserial : s.serial = t.serial := hreg (.field .serial)
  have hsecurity : s.security = t.security := hreg (.field .security)
  have hchecksum : s.checksum = t.checksum := hreg (.field .checksum)
  have hupgrade : s.upgrade = t.upgrade := hreg (.field .upgrade)
  have hextra : s.extra = t.extra := hreg (.field .extra)
  have hcsused : s.csused = t.csused := hreg .csused
  have hcrcout : s.crcout = t.crcout := hreg .crcout
  have hstatus : s.status = t.status := hreg .status
  have htextlen : s.textlen = t.textlen := hreg .textlen
  cases s
  cases t
  simp only [State.mk.injEq]
  exact ⟨hgroup, hserial, hsecurity, hchecksum, hupgrade, hextra, hpacked, hcsused, hcrcout, hstatus, htextlen, htext,
    hpending, hobserved⟩

theorem State.storeReg_storeReg_comm (s : State) {r r' : Reg} (v v' : Word) (hr : r.writable = true)
    (hr' : r'.writable = true) (hne : r ≠ r') :
    (s.storeReg r v).storeReg r' v' = (s.storeReg r' v').storeReg r v := by
  apply State.eq_of_loadReg_eq
  · intro q
    rw [State.loadReg_storeReg _ v' hr', State.loadReg_storeReg _ v hr, State.loadReg_storeReg _ v hr,
      State.loadReg_storeReg _ v' hr']
    by_cases hq : q = r
    · subst hq
      rw [if_neg hne, if_pos rfl, if_pos rfl]
    · rw [if_neg hq, if_neg hq]
  · simp only [State.storeReg_text]
  · simp only [State.storeReg_pending]
  · simp only [State.storeReg_observed]

theorem State.storeReg_setTextByte_comm (s : State) (r : Reg) (v : Word) (i : Fin 32) (c : Byte) :
    (s.storeReg r v).setTextByte i c = (s.setTextByte i c).storeReg r v := by
  cases r with
  | field f => cases f <;> rfl
  | _ => rfl

theorem State.setTextByte_setTextByte_comm (s : State) {i j : Fin 32} (c c' : Byte) (hne : i ≠ j) :
    (s.setTextByte i c).setTextByte j c' = (s.setTextByte j c').setTextByte i c :=
  congrArg (fun T => s.setText T) (Vector.set_comm c c' (fun h => hne (Fin.ext h)))

theorem State.storeReg_setPending (s : State) (r : Reg) (v : Word) (es : List HostEvent) :
    (s.setPending es).storeReg r v = (s.storeReg r v).setPending es := by
  cases r with
  | field f => cases f <;> rfl
  | _ => rfl

/-- Two events one after the other, each an update that does not touch the host's events. -/
theorem run_two_updates {e e' : HostEvent} {U U' : State → State} (he : ∀ s, serve e s = .next (U s))
    (he' : ∀ s, serve e' s = .next (U' s)) (hU : ∀ (s : State) es, U (s.setPending es) = (U s).setPending es)
    (rest : List HostEvent) (s : State) :
    core.run 2 (facing e (e' :: rest) s) = .next (U' (U (s.setPending rest))) := by
  have first : step (facing e (e' :: rest) s) = .next (facing e' rest (U s)) := by
    rw [step_facing, he, hU]
    rfl
  have second : step (facing e' rest (U s)) = .next (U' (U (s.setPending rest))) := by
    rw [step_facing, he', hU]
  simp only [Host.Core.run, core, first, second]

theorem serve_writeWord {r : Reg} (h : r.writable = true) (v : Word) (s : State) :
    serve (writeWord r.offset v) s = .next (s.storeReg r v) :=
  (memWrite_reg r v s).trans (writeReg_of_ne_cmd (Reg.ne_cmd_of_writable h) v s)

theorem serve_writeByte (i : Fin 32) (c : Byte) (s : State) :
    serve (writeByte (0x80 + i.val) c) s = .next (s.setTextByte i c) :=
  memWrite_text i c s

/-- Settles O16: both orders end in the same state because the two updates commute. -/
theorem registerWritesCommute : Obligations.RegisterWritesCommute := by
  unfold Obligations.RegisterWritesCommute
  intro s rest v v' c c' r r' i j hr
  refine ⟨fun hr' hne => ?_, ?_, fun hne => ?_⟩
  · refine ⟨((s.setPending rest).storeReg r v).storeReg r' v',
      run_two_updates (U := State.storeReg r v) (serve_writeWord hr v) (serve_writeWord hr' v')
        (fun s es => s.storeReg_setPending r v es) rest s, ?_, ?_, ?_, State.loadReg_storeReg_self _ v' hr'⟩
    · rw [State.storeReg_storeReg_comm _ v v' hr hr' hne]
      exact run_two_updates (U := State.storeReg r' v') (serve_writeWord hr' v') (serve_writeWord hr v)
        (fun s es => s.storeReg_setPending r' v' es) rest s
    · rw [State.storeReg_pending, State.storeReg_pending, State.setPending_pending]
    · rw [State.loadReg_storeReg_of_ne _ v' hne, State.loadReg_storeReg_self _ v hr]
  · refine ⟨((s.setPending rest).storeReg r v).setTextByte i c,
      run_two_updates (U := State.storeReg r v) (serve_writeWord hr v) (serve_writeByte i c)
        (fun s es => s.storeReg_setPending r v es) rest s, ?_, ?_, ?_, ?_⟩
    · rw [State.storeReg_setTextByte_comm]
      exact run_two_updates (U := State.setTextByte i c) (serve_writeByte i c) (serve_writeWord hr v) (fun _ _ => rfl)
        rest s
    · rw [State.setTextByte_pending, State.storeReg_pending, State.setPending_pending]
    · rw [State.loadReg_setTextByte, State.loadReg_storeReg_self _ v hr]
    · rw [State.setTextByte_text, text_set_getElem, if_pos rfl]
  · refine ⟨((s.setPending rest).setTextByte i c).setTextByte j c',
      run_two_updates (U := State.setTextByte i c) (serve_writeByte i c) (serve_writeByte j c') (fun _ _ => rfl) rest s,
      ?_, rfl, ?_, ?_⟩
    · rw [State.setTextByte_setTextByte_comm _ c c' hne]
      exact run_two_updates (U := State.setTextByte j c') (serve_writeByte j c') (serve_writeByte i c) (fun _ _ => rfl)
        rest s
    · rw [State.setTextByte_text, text_set_getElem, if_neg hne, State.setTextByte_text, text_set_getElem, if_pos rfl]
    · rw [State.setTextByte_text, text_set_getElem, if_pos rfl]

/-! ## The byte order of the window -/

/-- The thirteen registers stand eight bytes apart below `TEXT` (R35). -/
theorem Reg.offset_place (r : Reg) : r.offset % 8 = 0 ∧ r.offset < 0x80 := by
  cases r with
  | field f => cases f <;> decide
  | _ => decide

/-- The window's bytes at a register are those of the register, CMD reading 0 (R38, R39). -/
theorem windowByte_reg (s : State) (r : Reg) {j : Nat} (hj : j < 8) :
    s.windowByte (r.offset + j) = some (wordByte (s.loadReg r) j) := by
  obtain ⟨hdvd, hlt⟩ := r.offset_place
  have htext : textAt (r.offset + j) = none := dif_neg (by omega)
  have hreg : regAt ((r.offset + j) / 8 * 8) = some r := regAt_eq_some_iff.mpr (by omega)
  have hbyte : (r.offset + j) % 8 = j := by omega
  rw [State.windowByte, htext]
  simp only [hreg, hbyte, Option.map_some]

theorem wordByte_eq_ofNat (v : Word) (j : Nat) : wordByte v j = BitVec.ofNat 8 (v.toNat / 2 ^ (8 * j)) := by
  rw [wordByte, BitVec.extractLsb', Nat.shiftRight_eq_div_pow]

/-- A part of a part of a word is the part at the sum of the offsets. -/
theorem extractLsb'_extractLsb' {w : Nat} (v : BitVec w) {start len start' len' : Nat} (h : start' + len' ≤ len) :
    (v.extractLsb' start len).extractLsb' start' len' = v.extractLsb' (start + start') len' := by
  apply BitVec.eq_of_getLsbD_eq
  intro i hi
  have hin : start' + i < len := by omega
  simp only [BitVec.getLsbD_extractLsb', hi, hin, decide_true, Bool.true_and, Nat.add_assoc]

/-- Bytes 0x30 to 0x3F of the window are the bytes of `PACKED` in order, through its two halves (R37, R38). -/
theorem windowByte_packed (s : State) {i : Nat} (hi : i < 16) :
    s.windowByte (0x30 + i) = some (s.packed.extractLsb' (8 * i) 8) := by
  by_cases hlow : i < 8
  · calc s.windowByte (0x30 + i) = some (wordByte s.packedLo i) := windowByte_reg s .packedLo hlow
      _ = some (s.packed.extractLsb' (8 * i) 8) := by
        rw [wordByte, State.packedLo, extractLsb'_extractLsb' _ (by omega), Nat.zero_add]
  · obtain ⟨j, rfl⟩ : ∃ j, i = 8 + j := ⟨i - 8, by omega⟩
    calc s.windowByte (0x30 + (8 + j)) = s.windowByte (0x38 + j) := by rw [← Nat.add_assoc]
      _ = some (wordByte s.packedHi j) := windowByte_reg s .packedHi (by omega)
      _ = some (s.packed.extractLsb' (8 * (8 + j)) 8) := by
        rw [wordByte, State.packedHi, extractLsb'_extractLsb' _ (by omega), Nat.mul_add]

/-- Settles O15: a register's bytes are its own, those of the two halves are those of `PACKED`, and `LE16` lists them. -/
theorem windowIsLittleEndian : Obligations.WindowIsLittleEndian := by
  unfold Obligations.WindowIsLittleEndian
  intro s
  refine ⟨fun i hi => ?_, fun r j hj => ?_⟩
  · have hbyte : s.packed.extractLsb' (8 * i) 8 = BitVec.ofNat 8 (s.packed.toNat / 2 ^ (8 * i)) := by
      rw [BitVec.extractLsb', Nat.shiftRight_eq_div_pow]
    rw [windowByte_packed s hi, hbyte, le16_get s.packed hi]
    exact ⟨rfl, rfl⟩
  · rw [windowByte_reg s r hj, wordByte_eq_ofNat]

end Sys2Proof.Machine
end

section
/-! Proofs for 10_state.md section 6 and 60_exceptions.md section 1. What a command writes and raises, from its inversion lemma;
then the invariant. -/

namespace Sys2Proof.Machine

open Sys2Proof.SpecForm

/-! ## What a command writes and raises -/

/-- Settles O24: every command answers, and none touches the host's lists. -/
theorem everyCommandCompletes : Obligations.EveryCommandCompletes := by
  unfold Obligations.EveryCommandCompletes
  intro i s
  obtain ⟨t, h⟩ := exec_answers i s
  exact ⟨t, h, exec_keeps_hostLists h⟩

/-- Settles O28: the updates of each case of the command's inversion lemma are those of its row. -/
theorem commandsWriteListedRegistersOnly : Obligations.CommandsWriteListedRegistersOnly := by
  unfold Obligations.CommandsWriteListedRegistersOnly
  intro i s t h
  cases i with
  | pack => obtain ⟨e, -, rfl⟩ | ⟨r, -, rfl⟩ := execPack_cases h <;> simp
  | unpack =>
    obtain rfl := Host.Outcome.next.inj ((execUnpack_eq s).symm.trans h)
    simp
  | crc =>
    obtain rfl := Host.Outcome.next.inj ((execCrc_eq s).symm.trans h)
    simp
  | tenc => obtain ⟨-, rfl⟩ | ⟨k, -, -, rfl⟩ := execTenc_cases h <;> simp
  | tdec => obtain ⟨e, -, rfl⟩ | ⟨n, -, rfl⟩ := execTdec_cases h <;> simp
  | enckey => obtain ⟨e, -, rfl⟩ | ⟨r, k, -, -, rfl⟩ := execEnckey_cases h <;> simp
  | deckey => obtain ⟨e, -, rfl⟩ | ⟨n, -, rfl⟩ := execDeckey_cases h <;> simp

/-- An error of Pack is a field out of bounds or `Unencodable` (40_field_packer.md R62, R67). -/
theorem statusWord_of_packFields_error {f : FieldSet} {e : CodecError} (h : packFields f = .error e) :
    e.statusWord = 0x0002#64 ∨ ∃ k, k ≤ 5 ∧ e.statusWord = BitVec.ofNat 64 (1 + 256 * k) := by
  obtain ⟨g, -, hg⟩ | ⟨-, -, -, hu⟩ | ⟨-, -, hok⟩ := packFields_cases f
  · obtain rfl := Except.error.inj (hg.symm.trans h)
    exact .inr ⟨g.index, g.index_le_five, statusWord_outOfBounds g⟩
  · obtain rfl := Except.error.inj (hu.symm.trans h)
    exact .inl statusWord_unencodable
  · cases hok.symm.trans h

/-- An error of Decode is `MalformedLength` or a character that no key may hold (42_text_transform.md R96, R98). -/
theorem statusWord_of_inputKey_error {a : List Byte} {s : State} {e : CodecError} (h : s.inputKey a = .error e) :
    e.statusWord = 0x0004#64 ∨ ∃ c : Byte, ¬ KnownChar a c ∧ e.statusWord = BitVec.ofNat 64 (3 + 256 * c.toNat) := by
  by_cases hlen : 32 < s.textlen.toNat
  · obtain rfl := Except.error.inj ((inputKey_of_textlen_gt a hlen).symm.trans h)
    exact .inl statusWord_malformedLength
  · rw [inputKey_of_textlen_le a (by omega)] at h
    obtain hm | ⟨c, -, ha, hmarker, hdash, hc⟩ | ⟨p, vs, -, -, -, hok⟩ := decodeText_cases a (inputOf s)
    · obtain rfl := Except.error.inj (hm.symm.trans h)
      exact .inl statusWord_malformedLength
    · obtain rfl := Except.error.inj (hc.symm.trans h)
      exact .inr ⟨c, by rw [KnownChar, not_or, not_or]; exact ⟨ha, hmarker, hdash⟩, statusWord_invalidCharacter c⟩
    · cases hok.symm.trans h

/-- Settles O27: the command's error is one of Pack, of Encode or of Decode, whose STATUS words are known. -/
theorem commandsRaiseTheirOwnErrorsOnly : Obligations.CommandsRaiseTheirOwnErrorsOnly := by
  unfold Obligations.CommandsRaiseTheirOwnErrorsOnly
  intro i s t h
  cases i with
  | pack =>
    obtain ⟨e, he, rfl⟩ | ⟨r, -, rfl⟩ := execPack_cases h
    · exact .inr (statusWord_of_packFields_error he)
    · exact .inl rfl
  | unpack =>
    obtain rfl := Host.Outcome.next.inj ((execUnpack_eq s).symm.trans h)
    rfl
  | crc =>
    obtain rfl := Host.Outcome.next.inj ((execCrc_eq s).symm.trans h)
    rfl
  | tenc =>
    obtain ⟨-, rfl⟩ | ⟨k, -, -, rfl⟩ := execTenc_cases h
    · exact .inr rfl
    · exact .inl rfl
  | tdec =>
    obtain ⟨e, he, rfl⟩ | ⟨n, -, rfl⟩ := execTdec_cases h
    · exact .inr (statusWord_of_inputKey_error he)
    · exact .inl rfl
  | enckey =>
    obtain ⟨e, he, rfl⟩ | ⟨r, k, -, -, rfl⟩ := execEnckey_cases h
    · exact .inr (statusWord_of_packFields_error he)
    · exact .inl rfl
  | deckey =>
    obtain ⟨e, he, rfl⟩ | ⟨n, -, rfl⟩ := execDeckey_cases h
    · exact .inr (statusWord_of_inputKey_error he)
    · exact .inl rfl

/-! ## The invariant -/

theorem statusErr_toNat (w : Word) : (statusErr w).toNat = w.toNat % 2 ^ 3 := by
  rw [statusErr, BitVec.extractLsb'_toNat, Nat.shiftRight_zero]

theorem statusInfo_toNat (w : Word) : (statusInfo w).toNat = w.toNat / 2 ^ 8 % 2 ^ 8 := by
  rw [statusInfo, BitVec.extractLsb'_toNat, Nat.shiftRight_eq_div_pow]

/-- A STATUS word put together from a code and a byte is legal where the byte is what R109 lists for the code. -/
theorem legalStatus_ofNat {a : List Byte} {k : Nat} {c : Byte} (hk : k ≤ 5) (hfield : k = 1 → c.toNat ≤ 5)
    (hchar : k = 3 → ¬ KnownChar a c) (hzero : k ≠ 1 → k ≠ 3 → c = 0#8) :
    LegalStatus a (BitVec.ofNat 64 (k + 256 * c.toNat)) := by
  have hc : c.toNat < 2 ^ 8 := c.isLt
  have hw : (BitVec.ofNat 64 (k + 256 * c.toNat)).toNat = k + 256 * c.toNat := by
    rw [BitVec.toNat_ofNat, Nat.mod_eq_of_lt (by omega)]
  have herr : (statusErr (BitVec.ofNat 64 (k + 256 * c.toNat))).toNat = k := by
    rw [statusErr_toNat, hw]
    omega
  have hinfo : statusInfo (BitVec.ofNat 64 (k + 256 * c.toNat)) = c := by
    apply BitVec.eq_of_toNat_eq
    rw [statusInfo_toNat, hw]
    omega
  rw [LegalStatus, herr, hinfo, hw]
  refine ⟨by omega, by omega, hk, hfield, fun h => ?_, hzero⟩
  rw [← not_or, ← not_or]
  exact hchar h

/-- The words of STATUS that carry no byte: success and the errors without one. -/
theorem legalStatus_code (a : List Byte) {k : Nat} (hk : k ≤ 5) (hfield : k ≠ 1) (hchar : k ≠ 3) :
    LegalStatus a (BitVec.ofNat 64 k) :=
  legalStatus_ofNat (c := 0#8) hk (fun h => absurd h hfield) (fun h => absurd h hchar) fun _ _ => rfl

theorem legalStatus_field (a : List Byte) {k : Nat} (hk : k ≤ 5) : LegalStatus a (BitVec.ofNat 64 (1 + 256 * k)) := by
  have hk8 : (BitVec.ofNat 8 k).toNat = k := by rw [BitVec.toNat_ofNat, Nat.mod_eq_of_lt (by omega)]
  have h := legalStatus_ofNat (a := a) (k := 1) (c := BitVec.ofNat 8 k) (by decide) (fun _ => by omega)
    (fun h => absurd h (by decide)) (fun h => absurd rfl h)
  rwa [hk8] at h

theorem legalStatus_character {a : List Byte} {c : Byte} (hc : ¬ KnownChar a c) :
    LegalStatus a (BitVec.ofNat 64 (3 + 256 * c.toNat)) :=
  legalStatus_ofNat (by decide) (fun h => absurd h (by decide)) (fun _ => hc) fun _ h => absurd rfl h

/-- Every command leaves a legal STATUS: the values it may raise are legal. -/
theorem exec_status_legal {i : Instr} {s t : State} (h : exec i s = .next t) :
    LegalStatus Config.alphabet t.status := by
  have hraised := commandsRaiseTheirOwnErrorsOnly i s t h
  have hpack : t.status = 0#64 ∨ t.status = 0x0002#64 ∨ (∃ k, k ≤ 5 ∧ t.status = BitVec.ofNat 64 (1 + 256 * k)) →
      LegalStatus Config.alphabet t.status := by
    rintro (h0 | h2 | ⟨k, hk, h1⟩)
    · exact h0 ▸ legalStatus_code _ (k := 0) (by decide) (by decide) (by decide)
    · exact h2 ▸ legalStatus_code _ (k := 2) (by decide) (by decide) (by decide)
    · exact h1 ▸ legalStatus_field _ hk
  have hdecode : t.status = 0#64 ∨ t.status = 0x0004#64 ∨
      (∃ c : Byte, ¬ KnownChar Config.alphabet c ∧ t.status = BitVec.ofNat 64 (3 + 256 * c.toNat)) →
      LegalStatus Config.alphabet t.status := by
    rintro (h0 | h4 | ⟨c, hc, h3⟩)
    · exact h0 ▸ legalStatus_code _ (k := 0) (by decide) (by decide) (by decide)
    · exact h4 ▸ legalStatus_code _ (k := 4) (by decide) (by decide) (by decide)
    · exact h3 ▸ legalStatus_character hc
  cases i with
  | pack | enckey => exact hpack hraised
  | unpack | crc => exact hpack (.inl hraised)
  | tenc => exact hpack (hraised.imp_right .inl)
  | tdec | deckey => exact hdecode hraised

/-- The checksum Pack answers fits ten bits (40_field_packer.md R64). -/
theorem packFields_checksum_lt {f : FieldSet} {r : Nat × Nat} (h : packFields f = .ok r) : r.2 < 1024 := by
  obtain ⟨g, -, he⟩ | ⟨-, -, -, he⟩ | ⟨hin, -, hok⟩ := packFields_cases f
  · cases he.symm.trans h
  · cases he.symm.trans h
  · obtain rfl := Except.ok.inj (hok.symm.trans h)
    exact checksumUsed_lt hin

theorem setPackResult_csused_lt {s : State} {r : Nat × Nat} (h : r.2 < 1024) : (s.setPackResult r).csused.toNat < 1024 := by
  rw [State.setPackResult_csused, BitVec.toNat_ofNat, Nat.mod_eq_of_lt (by omega)]
  exact h

/-- CSUSED is written by PACK and ENCKEY alone, each with the checksum Pack answers. -/
theorem exec_csused_lt {i : Instr} {s t : State} (h : exec i s = .next t) (hs : s.csused.toNat < 1024) :
    t.csused.toNat < 1024 := by
  obtain ⟨-, -, hframe, -⟩ := commandsWriteListedRegistersOnly i s t h
  by_cases hpack : i = .pack
  · subst hpack
    obtain ⟨e, -, rfl⟩ | ⟨r, hr, rfl⟩ := execPack_cases h
    · exact hs
    · exact setPackResult_csused_lt (s := s) (packFields_checksum_lt hr)
  by_cases henckey : i = .enckey
  · subst henckey
    obtain ⟨e, -, rfl⟩ | ⟨r, k, hr, -, rfl⟩ := execEnckey_cases h
    · exact hs
    · exact setPackResult_csused_lt (s := s) (packFields_checksum_lt hr)
  · rwa [hframe hpack henckey]

/-- CRCOUT is written by CRC alone, with a 10-bit checksum. -/
theorem exec_crcout_lt {i : Instr} {s t : State} (h : exec i s = .next t) (hs : s.crcout.toNat < 1024) :
    t.crcout.toNat < 1024 := by
  obtain ⟨-, -, -, hframe, -⟩ := commandsWriteListedRegistersOnly i s t h
  by_cases hcrc : i = .crc
  · subst hcrc
    obtain rfl := Host.Outcome.next.inj ((execCrc_eq s).symm.trans h)
    rw [State.setStatus_crcout, State.setCrcout_crcout, BitVec.toNat_setWidth_of_le (by decide)]
    exact crc10_lt s.packed
  · rwa [hframe hcrc]

/-- Settles O22: the registers are zero after reset, and 0 is the STATUS of a success. -/
theorem resetMeetsTheInvariant : Obligations.ResetMeetsTheInvariant := by
  unfold Obligations.ResetMeetsTheInvariant
  exact ⟨by decide, by decide, legalStatus_code _ (k := 0) (by decide) (by decide) (by decide)⟩

/-- The invariant speaks of three registers only. -/
theorem inv_of_eq {s t : State} (h : Inv s) (hcsused : t.csused = s.csused) (hcrcout : t.crcout = s.crcout)
    (hstatus : t.status = s.status) : Inv t :=
  ⟨hcsused ▸ h.csused_small, hcrcout ▸ h.crcout_small, hstatus ▸ h.status_legal⟩

theorem exec_keeps_inv {i : Instr} {s t : State} (hs : Inv s) (h : exec i s = .next t) : Inv t :=
  ⟨exec_csused_lt h hs.csused_small, exec_crcout_lt h hs.crcout_small, exec_status_legal h⟩

/-- Whatever a host event does, it keeps the invariant. -/
theorem serve_keeps_inv {e : HostEvent} {s t : State} (hs : Inv s) (h : serve e s = .next t) : Inv t := by
  obtain ⟨i, hi⟩ | rfl | ⟨r, v, -, rfl⟩ | ⟨i, c, rfl⟩ | ⟨v, rfl⟩ | rfl := serve_cases h
  · exact exec_keeps_inv hs hi
  · exact ⟨hs.csused_small, hs.crcout_small, legalStatus_code _ (k := 5) (by decide) (by decide) (by decide)⟩
  · exact inv_of_eq hs (s.storeReg_csused r v) (s.storeReg_crcout r v) (s.storeReg_status r v)
  · exact inv_of_eq hs rfl rfl rfl
  · exact inv_of_eq hs rfl rfl rfl
  · exact inv_of_eq resetMeetsTheInvariant rfl rfl rfl

/-- Settles O23: a step is idle or serves one event, on the state whose list it is taken from. -/
theorem everyStepKeepsTheInvariant : Obligations.EveryStepKeepsTheInvariant := by
  unfold Obligations.EveryStepKeepsTheInvariant
  intro s t hs h
  cases hp : s.pending with
  | nil =>
    obtain rfl := Host.Outcome.next.inj ((step_nil hp).symm.trans h)
    exact hs
  | cons e rest => exact serve_keeps_inv (s := s.setPending rest) (inv_of_eq hs rfl rfl rfl) ((step_cons hp).symm.trans h)

end Sys2Proof.Machine
end

section
/-! Further proofs for 10_state.md section 6. What a command reads: it is `finish` of an answer computed from its operands and
mapped to its writes, so that three facts about `finish` of a mapped answer serve all seven commands. -/

namespace Sys2Proof.Machine

open Sys2Proof.SpecForm

/-! ## Every command as an answer mapped to its writes -/

theorem exec_pack_eq (s : State) :
    exec .pack s = finish s ((packFields s.fieldSet).map fun r => s.setPackResult r) := rfl

theorem exec_unpack_eq (s : State) :
    exec .unpack s = finish s ((Except.ok (unpackFields s.packedNat)).map fun f => s.setFieldSet f) := rfl

theorem exec_crc_eq (s : State) :
    exec .crc s = finish s ((Except.ok ((crc10 s.packed).setWidth 64)).map fun v => s.setCrcout v) := rfl

theorem exec_tenc_eq (s : State) :
    exec .tenc s = finish s ((encodeText Config.alphabet s.packedNat).map fun k => s.setKeyText k) := rfl

theorem exec_tdec_eq (s : State) :
    exec .tdec s = finish s ((s.inputKey Config.alphabet).map fun n => s.setPackedNat n) := rfl

theorem exec_deckey_eq (s : State) :
    exec .deckey s =
      finish s ((s.inputKey Config.alphabet).map fun n => (s.setPackedNat n).setFieldSet (unpackFields n)) := rfl

/-- ENCKEY's answer, from the field set alone: Pack's result and the key of it (43_key_commands.md R105). -/
def keyAnswer (a : List Byte) (f : FieldSet) : Except CodecError ((Nat × Nat) × List Byte) :=
  (packFields f).bind fun r => (encodeText a r.1).map fun k => (r, k)

theorem enckeyResult_eq_map (a : List Byte) (s : State) :
    enckeyResult a s = (keyAnswer a s.fieldSet).map fun x => (s.setPackResult x.1).setKeyText x.2 := by
  unfold enckeyResult keyAnswer
  cases packFields s.fieldSet with
  | error e => rfl
  | ok r =>
    show (encodeText a r.1).map _ = ((encodeText a r.1).map _).map _
    cases encodeText a r.1 <;> rfl

theorem exec_enckey_eq (s : State) :
    exec .enckey s =
      finish s ((keyAnswer Config.alphabet s.fieldSet).map fun x => (s.setPackResult x.1).setKeyText x.2) :=
  congrArg (finish s) (enckeyResult_eq_map Config.alphabet s)

section
variable {α : Type} {s s' t t' : State} {r : Except CodecError α}

/-- A change `L` of the state before a command goes through it, where the answer stays and `L` goes through the raising of
an error and through the writes. -/
theorem finish_map_through {f g : α → State} (L : State → State) (h : finish s (r.map f) = .next t)
    (hraise : ∀ e, s'.raise e = L (s.raise e)) (hok : ∀ x, (g x).setStatus statusOk = L ((f x).setStatus statusOk)) :
    finish s' (r.map g) = .next (L t) := by
  cases r with
  | error e =>
    obtain rfl := Host.Outcome.next.inj h
    exact congrArg Host.Outcome.next (hraise e)
  | ok x =>
    obtain rfl := Host.Outcome.next.inj h
    exact congrArg Host.Outcome.next (hok x)

/-- With the same answer a command leaves the same STATUS, and where that is 0 its writes. -/
theorem finish_map_agree {f g : α → State} {P : State → State → Prop} (h : finish s (r.map f) = .next t)
    (h' : finish s' (r.map g) = .next t') (hok : ∀ x, P ((f x).setStatus statusOk) ((g x).setStatus statusOk)) :
    t.status = t'.status ∧ (t.status = 0#64 → P t t') := by
  cases r with
  | error e =>
    obtain rfl := Host.Outcome.next.inj h
    obtain rfl := Host.Outcome.next.inj h'
    exact ⟨rfl, fun hzero => absurd hzero (statusWord_ne_zero e)⟩
  | ok x =>
    obtain rfl := Host.Outcome.next.inj h
    obtain rfl := Host.Outcome.next.inj h'
    exact ⟨rfl, fun _ => hok x⟩

/-- With the same answer again a command ends in the state it has left, where its writes may be made twice. -/
theorem finish_map_again {f : State → α → State} (h : finish s (r.map (f s)) = .next t)
    (hok : ∀ x, (f ((f s x).setStatus statusOk) x).setStatus statusOk = (f s x).setStatus statusOk) :
    finish t (r.map (f t)) = .next t := by
  cases r with
  | error e =>
    obtain rfl := Host.Outcome.next.inj h
    rfl
  | ok x =>
    obtain rfl := Host.Outcome.next.inj h
    exact congrArg Host.Outcome.next (hok x)

end

/-! ## The answer depends on the operands alone -/

theorem fieldSet_congr {s s' : State}
    (h : s.group = s'.group ∧ s.serial = s'.serial ∧ s.security = s'.security ∧ s.checksum = s'.checksum ∧
      s.upgrade = s'.upgrade ∧ s.extra = s'.extra) : s.fieldSet = s'.fieldSet := by
  obtain ⟨hgroup, hserial, hsecurity, hchecksum, hupgrade, hextra⟩ := h
  simp only [State.fieldSet, hgroup, hserial, hsecurity, hchecksum, hupgrade, hextra]

/-- The six fields lie within bits 114:0 (10_state.md R15). -/
theorem unpackFields_mod_two_pow_115 (n : Nat) : unpackFields (n % 2 ^ 115) = unpackFields n := by
  simp only [unpackFields_eq, FieldSet.mk.injEq]
  omega

theorem unpackFields_congr {s s' : State} (h : s.packed.toNat % 2 ^ 115 = s'.packed.toNat % 2 ^ 115) :
    unpackFields s.packedNat = unpackFields s'.packedNat := by
  rw [← unpackFields_mod_two_pow_115 s.packedNat, ← unpackFields_mod_two_pow_115 s'.packedNat]
  exact congrArg unpackFields h

/-- The input text is `TEXT` below `TEXTLEN`, and of `TEXT` nothing else is read (42_text_transform.md R102). -/
theorem inputKey_congr (a : List Byte) {s s' : State}
    (h : s.textlen = s'.textlen ∧ ∀ k : Fin 32, k.val < s.textlen.toNat → s.text[k] = s'.text[k]) :
    s.inputKey a = s'.inputKey a := by
  obtain ⟨hlen, htext⟩ := h
  have htake : s.text.toList.take s.textlen.toNat = s'.text.toList.take s.textlen.toNat := by
    refine List.ext_getElem (by simp) fun k hk _ => ?_
    rw [List.length_take, Vector.length_toList, Nat.lt_min] at hk
    rw [List.getElem_take, List.getElem_take, Vector.getElem_toList, Vector.getElem_toList]
    exact htext ⟨k, hk.2⟩ hk.1
  rw [inputKey_eq, inputKey_eq, htake, hlen]

/-- Settles O29: equal operands give equal answers, and the writes are made from the answer. -/
theorem commandsReadListedRegistersOnly : Obligations.CommandsReadListedRegistersOnly := by
  unfold Obligations.CommandsReadListedRegistersOnly
  intro i s s' t t' hops h h'
  cases i with
  | pack =>
    rw [exec_pack_eq, fieldSet_congr hops] at h
    exact finish_map_agree h h' fun _ => ⟨rfl, rfl⟩
  | unpack =>
    rw [exec_unpack_eq, unpackFields_congr hops] at h
    exact finish_map_agree h ((exec_unpack_eq s').symm.trans h') fun _ => ⟨rfl, rfl, rfl, rfl, rfl, rfl⟩
  | crc =>
    rw [exec_crc_eq, show s.packed = s'.packed from hops] at h
    exact finish_map_agree h ((exec_crc_eq s').symm.trans h') fun _ => rfl
  | tenc =>
    rw [exec_tenc_eq, show s.packedNat = s'.packedNat from congrArg BitVec.toNat hops] at h
    exact finish_map_agree h h' fun _ => ⟨rfl, rfl⟩
  | tdec =>
    rw [exec_tdec_eq, inputKey_congr _ hops] at h
    exact finish_map_agree h h' fun _ => rfl
  | enckey =>
    rw [exec_enckey_eq, fieldSet_congr hops] at h
    rw [exec_enckey_eq] at h'
    exact finish_map_agree h h' fun _ => ⟨rfl, rfl, rfl, rfl⟩
  | deckey =>
    rw [exec_deckey_eq, inputKey_congr _ hops] at h
    exact finish_map_agree h h' fun _ => ⟨rfl, rfl, rfl, rfl, rfl, rfl, rfl⟩

/-! ## A command issued twice -/

/-- No command writes a register it reads (10_state.md R28). -/
theorem exec_keeps_operands {i : Instr} {s t : State} (h : exec i s = .next t) : OperandsAgree i t s := by
  obtain ⟨hfields, hpacked, -, -, htext, -⟩ := commandsWriteListedRegistersOnly i s t h
  cases i with
  | pack | enckey => exact hfields (by decide) (by decide)
  | unpack =>
    exact congrArg (fun v : PackedWord => v.toNat % 2 ^ 115)
      (hpacked (by decide) (by decide) (by decide) (by decide))
  | crc | tenc => exact hpacked (by decide) (by decide) (by decide) (by decide)
  | tdec | deckey =>
    obtain ⟨ht, hlen⟩ := htext (by decide) (by decide)
    exact ⟨hlen, fun k _ => congrArg (fun v : Vector Byte 32 => v[k]) ht⟩

/-- Settles O30: the second time the operands are as they were, and the writes are made from the same answer. -/
theorem commandsAreIdempotent : Obligations.CommandsAreIdempotent := by
  unfold Obligations.CommandsAreIdempotent
  intro i s t h
  have hops := exec_keeps_operands h
  cases i with
  | pack =>
    rw [exec_pack_eq, fieldSet_congr hops]
    exact finish_map_again (f := fun s r => s.setPackResult r) h fun _ => rfl
  | unpack =>
    rw [exec_unpack_eq, unpackFields_congr hops]
    exact finish_map_again (f := fun s f => s.setFieldSet f) ((exec_unpack_eq s).symm.trans h) fun _ => rfl
  | crc =>
    rw [exec_crc_eq, show t.packed = s.packed from hops]
    exact finish_map_again (f := fun s v => s.setCrcout v) ((exec_crc_eq s).symm.trans h) fun _ => rfl
  | tenc =>
    rw [exec_tenc_eq, show t.packedNat = s.packedNat from congrArg BitVec.toNat hops]
    exact finish_map_again (f := fun s k => s.setKeyText k) h fun k => by simp only [State.setKeyText_setStatus]
  | tdec =>
    rw [exec_tdec_eq, inputKey_congr _ hops]
    exact finish_map_again (f := fun s n => s.setPackedNat n) h fun _ => rfl
  | enckey =>
    rw [exec_enckey_eq] at h ⊢
    rw [fieldSet_congr hops]
    refine finish_map_again (f := fun s (x : (Nat × Nat) × List Byte) => (s.setPackResult x.1).setKeyText x.2) h fun x => ?_
    simp only [State.setKeyText_setStatus]
    rfl
  | deckey =>
    rw [exec_deckey_eq, inputKey_congr _ hops]
    exact finish_map_again (f := fun s n => (s.setPackedNat n).setFieldSet (unpackFields n)) h fun _ => rfl

/-! ## What no command reads -/

/-- Neither the STATUS before a command nor what the host has read is an operand (10_state.md R20, 30_encoding.md R57): the
first is replaced, the second stays. -/
theorem exec_with_status_observed {i : Instr} {s t : State} (h : exec i s = .next t) (v : Word) (o : List ReadValue) :
    exec i { s with status := v, observed := o } = .next { t with observed := o } := by
  cases i with
  | pack => exact finish_map_through (fun t => { t with observed := o }) h (fun _ => rfl) fun _ => rfl
  | unpack =>
    rw [exec_unpack_eq] at h ⊢
    exact finish_map_through (fun t => { t with observed := o }) h (fun _ => rfl) fun _ => rfl
  | crc =>
    rw [exec_crc_eq] at h ⊢
    exact finish_map_through (fun t => { t with observed := o }) h (fun _ => rfl) fun _ => rfl
  | tenc => exact finish_map_through (fun t => { t with observed := o }) h (fun _ => rfl) fun _ => rfl
  | tdec => exact finish_map_through (fun t => { t with observed := o }) h (fun _ => rfl) fun _ => rfl
  | enckey =>
    rw [exec_enckey_eq] at h ⊢
    exact finish_map_through (fun t => { t with observed := o }) h (fun _ => rfl) fun _ => rfl
  | deckey => exact finish_map_through (fun t => { t with observed := o }) h (fun _ => rfl) fun _ => rfl

/-- Settles O26: a command answers, and its answer is the same whatever STATUS held. -/
theorem commandsDoNotReadStatus : Obligations.CommandsDoNotReadStatus := by
  unfold Obligations.CommandsDoNotReadStatus
  intro i s v
  obtain ⟨t, h⟩ := exec_answers i s
  obtain ⟨-, hobserved⟩ := exec_keeps_hostLists h
  calc exec i { s with status := v } = .next { t with observed := s.observed } :=
        exec_with_status_observed h v s.observed
    _ = .next t := by rw [← hobserved]
    _ = exec i s := h.symm

/-- Settles O51: the input text is the same in both states, and neither command writes `TEXT`. -/
theorem textBeyondTheLengthIsNotRead : Obligations.TextBeyondTheLengthIsNotRead := by
  unfold Obligations.TextBeyondTheLengthIsNotRead
  intro i s t T hi htext h
  have hkey : ({ s with text := T } : State).inputKey Config.alphabet = s.inputKey Config.alphabet :=
    inputKey_congr _ ⟨rfl, htext⟩
  rcases hi with rfl | rfl
  · rw [exec_tdec_eq, hkey]
    exact finish_map_through (fun t => { t with text := T }) h (fun _ => rfl) fun _ => rfl
  · rw [exec_deckey_eq, hkey]
    exact finish_map_through (fun t => { t with text := T }) h (fun _ => rfl) fun _ => rfl

end Sys2Proof.Machine
end

section
/-! Further proofs for 20_memory.md section 4. A run of the block's own events answers whatever the host has read before, and only
appends to it; two such runs go through any interleaving. -/

namespace Sys2Proof.Machine

open Sys2Proof.SpecForm

/-! ## Runs that only append to what the host has read -/

/-- `f` answers from `s`, whatever the host has read, the same registers and appended values, and leaves it the events
`es`. -/
def Appends (f : State → Result) (s : State) (es : List HostEvent) : Prop :=
  ∃ (t : State) (vs : List ReadValue), t.pending = es ∧
    ∀ o, f { s with observed := o } = .next { t with observed := o ++ vs }

/-- An update that leaves the host's two lists alone appends nothing. -/
theorem appends_of_update {f : State → Result} {s t : State} (hpending : t.pending = s.pending)
    (h : ∀ o, f { s with observed := o } = .next { t with observed := o }) : Appends f s s.pending :=
  ⟨t, [], hpending, fun o => by rw [List.append_nil, h]⟩

theorem exec_appends (i : Instr) (s : State) : Appends (exec i) s s.pending := by
  obtain ⟨t, h⟩ := exec_answers i s
  exact appends_of_update (exec_keeps_hostLists h).1 fun o => exec_with_status_observed h s.status o

theorem issueCommand_appends (w : Word) (s : State) : Appends (issueCommand w) s s.pending := by
  cases hw : decode w with
  | ok i =>
    have hissue : issueCommand w = exec i := funext (issueCommand_of_decode_ok hw)
    rw [hissue]
    exact exec_appends i s
  | error e => exact appends_of_update (State.raise_pending s _) fun o => issueCommand_of_decode_error hw _

theorem State.storeReg_with_observed (s : State) (r : Reg) (v : Word) (o : List ReadValue) :
    ({ s with observed := o } : State).storeReg r v = { s.storeReg r v with observed := o } := by
  cases r with
  | field f => cases f <;> rfl
  | _ => rfl

theorem State.loadReg_with_observed (s : State) (r : Reg) (o : List ReadValue) :
    ({ s with observed := o } : State).loadReg r = s.loadReg r := by
  cases r with
  | field f => cases f <;> rfl
  | _ => rfl

theorem memWrite_appends {off n : Nat} (h : Admitted off n) (v : BitVec (8 * n)) (s : State) :
    Appends (memWrite off n v) s s.pending := by
  obtain ⟨r, rfl, rfl⟩ | ⟨i, rfl, rfl⟩ := reg_or_text_of_admitted h
  · have hwrite : memWrite r.offset 8 v = writeReg r v := funext (memWrite_reg r v)
    rw [hwrite]
    by_cases hr : r = .cmd
    · subst hr
      exact issueCommand_appends v s
    · exact appends_of_update (s.storeReg_pending r v) fun o =>
        (writeReg_of_ne_cmd hr v _).trans (congrArg Host.Outcome.next (s.storeReg_with_observed r v o))
  · exact appends_of_update (s.setTextByte_pending i v) fun o => memWrite_text i v _

/-- A read appends the value it returns. -/
theorem memRead_appends {off n : Nat} (h : Admitted off n) (s : State) : Appends (memRead off n) s s.pending := by
  obtain ⟨r, rfl, rfl⟩ | ⟨i, rfl, rfl⟩ := reg_or_text_of_admitted h
  · refine ⟨s, [.word (s.loadReg r)], rfl, fun o => ?_⟩
    rw [memRead_reg, State.loadReg_with_observed]
    rfl
  · exact ⟨s, [.byte s.text[i]], rfl, fun o => memRead_text i _⟩

/-- The only events of a host that stop the block are accesses that are not admitted and those of another host. -/
theorem serve_appends {e : HostEvent} (he : OwnEvent e) (s : State) : Appends (serve e) s s.pending := by
  cases e with
  | access a =>
    cases a with
    | write off n v => exact memWrite_appends he v s
    | load off n => exact memRead_appends he s
  | reset => exact appends_of_update (t := s.resetBlock) rfl fun _ => rfl
  | otherHost a => exact he.elim

theorem step_appends {s : State} (hown : ∀ e ∈ s.pending, OwnEvent e) : Appends step s (s.pending.drop 1) := by
  cases hp : s.pending with
  | nil => exact ⟨s, [], hp, fun o => by rw [List.append_nil]; exact step_nil hp⟩
  | cons e rest =>
    obtain ⟨t, vs, ht, h⟩ := serve_appends (hown e (by simp [hp])) (s.setPending rest)
    exact ⟨t, vs, ht, fun o => (step_cons (s := { s with observed := o }) hp).trans (h o)⟩

theorem core_run_succ {s u : State} (h : step s = .next u) (n : Nat) : core.run (n + 1) s = core.run n u := by
  simp only [Host.Core.run, core, h]

/-- A run that answers has taken its first step and then run on. -/
theorem core_run_succ_cases {n : Nat} {s t : State} (h : core.run (n + 1) s = .next t) :
    ∃ u, step s = .next u ∧ core.run n u = .next t := by
  cases hs : step s with
  | next u => exact ⟨u, rfl, (core_run_succ hs n).symm.trans h⟩
  | fault r => cases r
  | refused r => simp [Host.Core.run, core, hs] at h

/-- A run takes as many events off the list as it has steps, past the end of the list none. -/
theorem run_appends (n : Nat) {s : State} (hown : ∀ e ∈ s.pending, OwnEvent e) :
    Appends (core.run n) s (s.pending.drop n) := by
  induction n generalizing s with
  | zero => exact appends_of_update (t := s) rfl fun _ => rfl
  | succ n ih =>
    obtain ⟨u, vs, hu, hstep⟩ := step_appends hown
    obtain ⟨t, ws, ht, hrun⟩ := ih (s := u) fun e he => hown e (List.mem_of_mem_drop (hu ▸ he))
    refine ⟨t, vs ++ ws, ?_, fun o => ?_⟩
    · rw [ht, hu, List.drop_drop, Nat.add_comm]
    · rw [← List.append_assoc]
      exact (core_run_succ (hstep o) n).trans (hrun (o ++ vs))

/-! ## Two blocks under one schedule -/

/-- Two runs that answer go through every interleaving of their steps. -/
theorem runPair_of_run (sched : List Bool) {s s' t t' : State} (h : core.run (sched.count true) s = .next t)
    (h' : core.run (sched.count false) s' = .next t') : runPair sched s s' = some (t, t') := by
  induction sched generalizing s s' with
  | nil =>
    obtain rfl := Host.Outcome.next.inj h
    obtain rfl := Host.Outcome.next.inj h'
    rfl
  | cons b sched ih =>
    cases b with
    | true =>
      rw [List.count_cons_self] at h
      rw [List.count_cons_of_ne (by decide)] at h'
      obtain ⟨u, hstep, hrun⟩ := core_run_succ_cases h
      simp only [runPair, hstep]
      exact ih hrun h'
    | false =>
      rw [List.count_cons_of_ne (by decide)] at h
      rw [List.count_cons_self] at h'
      obtain ⟨u, hstep, hrun⟩ := core_run_succ_cases h'
      simp only [runPair, hstep]
      exact ih h hrun

/-- Settles O18: each of the two runs alone, for every list of values read before, and the interleaving runs them both. -/
theorem instancesDoNotInterfere : Obligations.InstancesDoNotInterfere := by
  unfold Obligations.InstancesDoNotInterfere
  constructor
  · intro sched s s' hown hown'
    obtain ⟨t, vs, ht, hrun⟩ := run_appends (sched.count true) hown
    obtain ⟨t', vs', ht', hrun'⟩ := run_appends (sched.count false) hown'
    refine ⟨{ t with observed := s.observed ++ vs }, { t' with observed := s'.observed ++ vs' }, vs, vs',
      runPair_of_run sched (hrun s.observed) (hrun' s'.observed), hrun s.observed, hrun' s'.observed, ht, ht', rfl, rfl,
      fun hsame hcount => ?_⟩
    have hagree : ∀ o, ({ t with observed := o ++ vs } : State) = { t' with observed := o ++ vs' } := by
      intro o
      have hrun' := hrun' o
      rw [hsame, ← hcount] at hrun'
      exact Host.Outcome.next.inj ((hrun o).symm.trans hrun')
    have hvs : vs = vs' := congrArg State.observed (hagree [])
    refine ⟨hvs.symm, ?_⟩
    rw [← hagree s'.observed]
  · intro sched s s' a rest
    constructor
    · simp only [runPair, step_facing, serve]
    · simp only [runPair, step_facing, serve]

end Sys2Proof.Machine
end

section
/-! Further proofs for 40_field_packer.md and 10_state.md section 3. The packed sum has the fields at their offsets; what PACK
leaves, what UNPACK reads of it, and the other way round. -/

namespace Sys2Proof.Machine

open Sys2Proof.SpecForm

/-! ## The layout -/

theorem usedChecksum_lt {s : State} (h : FieldsInBounds s) : usedChecksum s < 1024 := by
  rw [← checksumUsed_fieldSet h]
  exact checksumUsed_lt (fieldSet_inBounds h)

theorem packedSum_eq (s : State) :
    packedSum s = s.group.toNat + s.serial.toNat * 2 ^ 20 + s.security.toNat * 2 ^ 50 + s.upgrade.toNat * 2 ^ 113 +
      s.extra.toNat * 2 ^ 114 + usedChecksum s * 2 ^ 103 := rfl

/-- The packed integer takes 115 bits (R66). -/
theorem packedSum_lt {s : State} (h : FieldsInBounds s) : packedSum s < 2 ^ 115 := by
  have hused := usedChecksum_lt h
  obtain ⟨hgroup, hserial, hsecurity, -, -, hupgrade, hextra⟩ := h
  rw [packedSum_eq]
  omega

theorem packed_ofNat_packedSum {s : State} (h : FieldsInBounds s) :
    (BitVec.ofNat 128 (packedSum s)).toNat = packedSum s := by
  rw [BitVec.toNat_ofNat, Nat.mod_eq_of_lt ((packedSum_lt h).trans (by decide))]

/-- Unpack takes the packed integer apart into the fields, the checksum being the one used (R73). -/
theorem unpackFields_packedSum {s : State} (h : FieldsInBounds s) :
    unpackFields (packedSum s) = { s.fieldSet with checksum := usedChecksum s } := by
  have hused := usedChecksum_lt h
  obtain ⟨hgroup, hserial, hsecurity, -, -, hupgrade, hextra⟩ := h
  rw [unpackFields_eq, packedSum_eq]
  simp only [State.fieldSet, FieldSet.mk.injEq]
  omega

/-- A field of a field set, by its name. -/
def FieldSet.get (f : FieldSet) : Field → Nat
  | .group => f.group
  | .serial => f.serial
  | .security => f.security
  | .checksum => f.checksum
  | .upgrade => f.upgrade
  | .extra => f.extra

theorem fieldSet_get (s : State) (f : Field) : s.fieldSet.get f = (s.fieldReg f).toNat := by
  cases f <;> rfl

/-- Unpack reads each field at the offset and width of the layout table (10_state.md R15). -/
theorem unpackFields_get (n : Nat) (f : Field) : (unpackFields n).get f = n / 2 ^ f.bitOffset % 2 ^ f.width := by
  rw [unpackFields_eq]
  cases f with
  | group => rw [Field.bitOffset, Nat.pow_zero, Nat.div_one]; rfl
  | _ => rfl

theorem fieldReg_setFieldSet (s : State) (g : FieldSet) (f : Field) :
    (s.setFieldSet g).fieldReg f = BitVec.ofNat 64 (g.get f) := by
  cases f <;> rfl

/-- A field, which is at most 53 bits wide, fits its register (10_state.md R15). -/
theorem div_mod_width_lt (n : Nat) (f : Field) : n / 2 ^ f.bitOffset % 2 ^ f.width < 2 ^ 64 := by
  refine (Nat.mod_lt _ (by positivity)).trans_le (Nat.pow_le_pow_right (by decide) ?_)
  cases f <;> decide

/-- What a mask of `w` ones at offset `o` selects. -/
theorem and_mask_eq (n o w : Nat) : n &&& ((2 ^ w - 1) <<< o) = n / 2 ^ o % 2 ^ w * 2 ^ o := by
  apply Nat.eq_of_testBit_eq
  intro i
  rw [Nat.testBit_and, Nat.testBit_shiftLeft, Nat.testBit_two_pow_sub_one, ← Nat.shiftLeft_eq, Nat.testBit_shiftLeft,
    Nat.testBit_mod_two_pow, Nat.testBit_div_two_pow]
  by_cases h : o ≤ i
  · rw [Nat.sub_add_cancel h, Bool.and_comm, Bool.and_assoc]
  · simp [h]

@[simp] theorem State.fieldReg_setStatus (s : State) (v : Word) (f : Field) :
    (s.setStatus v).fieldReg f = s.fieldReg f := by
  cases f <;> rfl

/-- UNPACK puts each field into its register (R72). -/
theorem exec_unpack_fieldReg (s : State) : ∃ t, exec .unpack s = .next t ∧
    ∀ f, (t.fieldReg f).toNat = s.packed.toNat / 2 ^ f.bitOffset % 2 ^ f.width := by
  refine ⟨_, execUnpack_eq s, fun f => ?_⟩
  rw [State.fieldReg_setStatus, fieldReg_setFieldSet, unpackFields_get, BitVec.toNat_ofNat,
    Nat.mod_eq_of_lt (div_mod_width_lt _ f)]
  rfl

/-! ## PACK then UNPACK -/

/-- Where Pack has a result the fields are within the bounds, and the result is the sum and the checksum used (R64 to
R66). -/
theorem eq_of_packFields_fieldSet_ok {s : State} {r : Nat × Nat} (h : packFields s.fieldSet = .ok r) :
    FieldsInBounds s ∧ r = (packedSum s, usedChecksum s) := by
  obtain ⟨g, -, he⟩ | ⟨-, -, -, he⟩ | ⟨⟨hgroup, hserial, hsecurity, hpos, hchecksum, hupgrade, hextra⟩, -, hok⟩ :=
    packFields_cases s.fieldSet
  · cases he.symm.trans h
  · cases he.symm.trans h
  · have hin : FieldsInBounds s := ⟨hgroup, hserial, hsecurity, hpos, hchecksum, hupgrade, hextra⟩
    obtain rfl := Except.ok.inj (hok.symm.trans h)
    rw [finalPack_fieldSet hin, checksumUsed_fieldSet hin]
    exact ⟨hin, rfl⟩

/-- What a successful PACK has found and left (R64 to R68). -/
theorem exec_pack_ok {s t : State} (h : exec .pack s = .next t) (hok : t.status = 0#64) :
    FieldsInBounds s ∧ t = { s with
      packed := BitVec.ofNat 128 (packedSum s), csused := BitVec.ofNat 64 (usedChecksum s), status := 0#64 } := by
  obtain ⟨e, -, rfl⟩ | ⟨r, hr, rfl⟩ := execPack_cases h
  · exact absurd hok (statusWord_ne_zero e)
  · obtain ⟨hin, rfl⟩ := eq_of_packFields_fieldSet_ok hr
    rw [State.setPackResult_setStatus, statusOk]
    exact ⟨hin, rfl⟩

/-- What UNPACK reads of the packed integer, field by field. -/
theorem packedSum_div_mod {s : State} (h : FieldsInBounds s) (f : Field) :
    packedSum s / 2 ^ f.bitOffset % 2 ^ f.width = if f = .checksum then usedChecksum s else (s.fieldReg f).toNat := by
  rw [← unpackFields_get, unpackFields_packedSum h, ← fieldSet_get]
  cases f <;> rfl

theorem usedChecksum_ofNat {s : State} (h : FieldsInBounds s) : (BitVec.ofNat 64 (usedChecksum s)).toNat = usedChecksum s := by
  rw [BitVec.toNat_ofNat, Nat.mod_eq_of_lt ((usedChecksum_lt h).trans (by decide))]

/-- The bound of a field other than the checksum is its maximum (R62, 90_conflicts.md C4). -/
theorem get_le_maxValue {g : FieldSet} (h : g.InBounds) {f : Field} (hf : f ≠ .checksum) : g.get f ≤ f.maxValue := by
  cases f with
  | group => exact h.group
  | serial => exact h.serial
  | security => exact h.security
  | checksum => exact absurd rfl hf
  | upgrade => exact h.upgrade
  | extra => exact h.extra

theorem statusErr_outOfBounds (f : Field) : statusErr (CodecError.outOfBounds f).statusWord = 1#3 := by
  cases f <;> decide

/-- A field out of its bounds ends PACK with `ERR` 1 (R62). -/
theorem exec_pack_statusErr_of_not_inBounds {s t : State} (h : exec .pack s = .next t) (hout : ¬ s.fieldSet.InBounds) :
    statusErr t.status = 1#3 := by
  obtain ⟨g, -, hg⟩ | ⟨hin, -⟩ | ⟨hin, -⟩ := packFields_cases s.fieldSet
  · obtain rfl := Host.Outcome.next.inj ((exec_of_packFields_error (.inl rfl) hg).symm.trans h)
    exact statusErr_outOfBounds g
  · exact absurd hin hout
  · exact absurd hin hout

/-- Settles O31: the table by evaluation; UNPACK's fields are the quotients, which the masks select; PACK's are those of the
sum it stores, and its bounds are the maxima. -/
theorem fieldLayoutTable : Obligations.FieldLayoutTable := by
  unfold Obligations.FieldLayoutTable
  refine ⟨by decide, fun s => ?_, fun s t h => ⟨fun hok f => ?_, fun f hf hover => ?_⟩⟩
  · obtain ⟨t, ht, hfield⟩ := exec_unpack_fieldReg s
    refine ⟨t, ht, fun f => ⟨hfield f, ?_⟩⟩
    rw [hfield f, Field.mask, Field.maxValue, and_mask_eq]
  · obtain ⟨hin, rfl⟩ := exec_pack_ok h hok
    rw [packed_ofNat_packedSum hin, packedSum_div_mod hin]
    split
    · exact (usedChecksum_ofNat hin).symm
    · rfl
  · refine exec_pack_statusErr_of_not_inBounds h fun hin => ?_
    have hle := get_le_maxValue hin hf
    rw [fieldSet_get] at hle
    omega

theorem setFieldSet_fieldSet_with_checksum (s : State) (c : Nat) :
    s.setFieldSet { s.fieldSet with checksum := c } = { s with checksum := BitVec.ofNat 64 c } := by
  simp only [State.setFieldSet, State.fieldSet, BitVec.ofNat_toNat, BitVec.setWidth_eq]

/-- UNPACK where `PACKED` holds the sum of the field registers changes the checksum alone (R73). -/
theorem exec_unpack_of_packedSum {s t : State} (hin : FieldsInBounds s) (hfields : t.fieldSet = s.fieldSet)
    (hpacked : t.packed.toNat = packedSum s) :
    exec .unpack t = .next { t with checksum := BitVec.ofNat 64 (usedChecksum s), status := 0#64 } := by
  calc exec .unpack t = .next ((t.setFieldSet (unpackFields t.packed.toNat)).setStatus statusOk) := execUnpack_eq t
    _ = .next (State.setStatus statusOk { t with checksum := BitVec.ofNat 64 (usedChecksum s) }) := by
      rw [hpacked, unpackFields_packedSum hin, ← hfields, setFieldSet_fieldSet_with_checksum]
    _ = .next { t with checksum := BitVec.ofNat 64 (usedChecksum s), status := 0#64 } := rfl

/-- Settles O37: UNPACK takes the sum that PACK has stored apart into the registers PACK has read. -/
theorem unpackRestoresThePackedFields : Obligations.UnpackRestoresThePackedFields := by
  unfold Obligations.UnpackRestoresThePackedFields
  intro s t h hok
  obtain ⟨hin, ht⟩ := exec_pack_ok h hok
  have hpacked : t.packed.toNat = packedSum s := by rw [ht, packed_ofNat_packedSum hin]
  have hcsused : t.csused = BitVec.ofNat 64 (usedChecksum s) := by rw [ht]
  have hfields : t.fieldSet = s.fieldSet := by simp only [ht, State.fieldSet]
  refine ⟨?_, by rw [ht], by rw [ht], by rw [ht], by rw [ht], by rw [ht], fun hsupplied => ?_⟩
  · have hunpack := exec_unpack_of_packedSum hin hfields hpacked
    rwa [← hcsused, ← hok] at hunpack
  · rw [hcsused, usedChecksum, if_neg hsupplied, BitVec.ofNat_toNat, BitVec.setWidth_eq]

/-! ## Where `Unencodable` arises -/

/-- Within the bounds PACK ends with `Unencodable` by the one test of R67. -/
theorem exec_pack_eq_unencodable_iff {s : State} (h : FieldsInBounds s) :
    exec .pack s = .next { s with status := 0x0002#64 } ↔ s.extra.toNat ≠ 0 ∧ 24 ^ 25 < packedSum s := by
  obtain ⟨hfail, hsucceed⟩ := unencodableAboveTheLimit .pack s (.inl rfl) h
  refine ⟨fun hpack => ?_, fun ⟨hextra, hlimit⟩ => hfail hextra hlimit⟩
  by_contra hnot
  obtain ⟨t, ht, hok⟩ := hsucceed (by omega)
  obtain rfl := Host.Outcome.next.inj (hpack.symm.trans ht)
  exact absurd (show (0x0002#64 : Word) = 0#64 from hok) (by decide)

/-- `LIMIT` in terms of the fields: EXTRA and UPGRADE 1, the checksum 84, SECURITY 0xCAC5546000000 (R74). -/
theorem limit_lt_packedSum_iff {s : State} (h : FieldsInBounds s) :
    s.extra.toNat ≠ 0 ∧ 24 ^ 25 < packedSum s ↔
      s.extra.toNat = 1 ∧ s.upgrade.toNat = 1 ∧
      (84 < usedChecksum s ∨ (usedChecksum s = 84 ∧
        ¬ (s.security.toNat < 0xCAC5546000000 ∨
          (s.security.toNat = 0xCAC5546000000 ∧ s.serial.toNat = 0 ∧ s.group.toNat = 0)))) := by
  have hused := usedChecksum_lt h
  obtain ⟨hgroup, hserial, hsecurity, -, -, hupgrade, hextra⟩ := h
  rw [packedSum_eq]
  omega

/-- Settles O35: the test of R67 in terms of the fields. -/
theorem unencodableArisesExactlyWhere : Obligations.UnencodableArisesExactlyWhere := by
  unfold Obligations.UnencodableArisesExactlyWhere
  exact fun s h => (exec_pack_eq_unencodable_iff h).trans (limit_lt_packedSum_iff h)

/-! ## UNPACK then PACK -/

/-- The registers after UNPACK in numbers (R70, R72). -/
theorem exec_unpack_toNat {s t : State} (h : exec .unpack s = .next t) :
    t.group.toNat = s.packed.toNat % 2 ^ 20 ∧ t.serial.toNat = s.packed.toNat / 2 ^ 20 % 2 ^ 30 ∧
    t.security.toNat = s.packed.toNat / 2 ^ 50 % 2 ^ 53 ∧ t.checksum.toNat = s.packed.toNat / 2 ^ 103 % 2 ^ 10 ∧
    t.upgrade.toNat = s.packed.toNat / 2 ^ 113 % 2 ∧ t.extra.toNat = s.packed.toNat / 2 ^ 114 % 2 := by
  obtain rfl := Host.Outcome.next.inj ((unpackExtractsTheFields s).symm.trans h)
  simp only [withFieldsOf, BitVec.toNat_ofNat]
  omega

/-- UNPACK leaves fields within PACK's bounds, but for a checksum of 0 (R63, R75). -/
theorem fieldsInBounds_of_exec_unpack {s t : State} (h : exec .unpack s = .next t)
    (hck : s.packed.toNat / 2 ^ 103 % 2 ^ 10 ≠ 0) : FieldsInBounds t := by
  obtain ⟨hgroup, hserial, hsecurity, hchecksum, hupgrade, hextra⟩ := exec_unpack_toNat h
  rw [FieldsInBounds]
  omega

/-- A checksum that UNPACK has read is never the sentinel: it has ten bits (R75). -/
theorem usedChecksum_of_exec_unpack {s t : State} (h : exec .unpack s = .next t) : usedChecksum t = t.checksum.toNat := by
  obtain ⟨-, -, -, hchecksum, -, -⟩ := exec_unpack_toNat h
  rw [usedChecksum, if_neg (by omega)]

/-- Packing what UNPACK has read gives bits 114:0 back (R75). -/
theorem packedSum_of_exec_unpack {s t : State} (h : exec .unpack s = .next t) :
    packedSum t = s.packed.toNat % 2 ^ 115 := by
  obtain ⟨hgroup, hserial, hsecurity, hchecksum, hupgrade, hextra⟩ := exec_unpack_toNat h
  rw [packedSum_eq, usedChecksum_of_exec_unpack h]
  omega

/-- Settles O38: the checksum 0 is out of bounds; with another one PACK tests and stores bits 114:0. -/
theorem packAfterUnpack : Obligations.PackAfterUnpack := by
  unfold Obligations.PackAfterUnpack
  intro s t h
  refine ⟨fun hck => ?_, fun hck hle => ?_, fun hck hgt => ?_⟩
  · obtain ⟨hgroup, hserial, hsecurity, hchecksum, -, -⟩ := exec_unpack_toNat h
    obtain ⟨-, -, -, hzero, -, -⟩ := outOfBoundsNamesTheFirstField .pack t (.inl rfl)
    exact hzero (by omega) (by omega) (by omega) (.inl (hchecksum.trans hck))
  · have hstore := packStoresTheFieldSum t (fieldsInBounds_of_exec_unpack h hck)
      (.inr (by rwa [packedSum_of_exec_unpack h]))
    rwa [packedSum_of_exec_unpack h, usedChecksum_of_exec_unpack h, BitVec.ofNat_toNat, BitVec.setWidth_eq] at hstore
  · obtain ⟨-, -, -, -, -, hextra⟩ := exec_unpack_toNat h
    refine (exec_pack_eq_unencodable_iff (fieldsInBounds_of_exec_unpack h hck)).mpr ⟨by omega, ?_⟩
    rwa [packedSum_of_exec_unpack h]

end Sys2Proof.Machine
end

section
/-! Further proofs for 41_checksum_unit.md section 3. The byte step by the table: the byte step is linear, and a register whose top
byte is clear goes through eight bit steps without meeting the polynomial. -/

namespace Sys2Proof.Machine

open Sys2Proof.SpecForm

/-- Bit steps that shift no bit out are a shift (R78). -/
theorem crcBits_eq_shiftLeft (k : Nat) (x : CrcWord) (h : x.toNat * 2 ^ k < 2 ^ 32) : crcBits k x = x <<< k := by
  induction k generalizing x with
  | zero => exact (BitVec.shiftLeft_zero x).symm
  | succ k ih =>
    rw [Nat.pow_succ'] at h
    have hpos : 1 ≤ 2 ^ k := Nat.one_le_two_pow
    have hdouble : x.toNat * 2 * 2 ^ k < 2 ^ 32 := by rwa [Nat.mul_assoc]
    have hsmall : x.toNat * 2 < 2 ^ 32 := lt_of_le_of_lt (Nat.le_mul_of_pos_right _ hpos) hdouble
    have hmsb : x.msb = false := by
      rw [BitVec.msb_eq_decide, decide_eq_false_iff_not]
      omega
    have hshift : (x <<< 1).toNat = x.toNat * 2 := by
      rw [BitVec.toNat_shiftLeft, Nat.shiftLeft_eq, Nat.pow_one, Nat.mod_eq_of_lt hsmall]
    rw [crcBits, crcBit, hmsb, if_neg Bool.false_ne_true, ih _ (by rwa [hshift]), ← BitVec.shiftLeft_add, Nat.add_comm]

/-- A register is its top byte and its other three bytes. -/
theorem topByte_xor_rest (x : CrcWord) :
    ((x.extractLsb' 24 8).setWidth 32 <<< 24) ^^^ (x.setWidth 24).setWidth 32 = x := by
  apply BitVec.eq_of_getLsbD_eq
  intro i hi
  simp only [BitVec.getLsbD_xor, BitVec.getLsbD_shiftLeft, BitVec.getLsbD_setWidth, BitVec.getLsbD_extractLsb', hi]
  by_cases htop : i < 24
  · simp [htop]
  · simp [htop, show i - 24 < 32 by omega, show i - 24 < 8 by omega, show 24 + (i - 24) = i by omega]

/-- A shift by eight drops the top byte. -/
theorem rest_shiftLeft (x : CrcWord) : (x.setWidth 24).setWidth 32 <<< 8 = x <<< 8 := by
  apply BitVec.eq_of_getLsbD_eq
  intro i hi
  simp only [BitVec.getLsbD_shiftLeft, BitVec.getLsbD_setWidth, hi]
  by_cases hlow : i < 8
  · simp [hlow]
  · simp [hlow, show i - 8 < 32 by omega, show i - 8 < 24 by omega]

theorem crcTable_eq (b : Byte) : crcTable b = crcBits 8 (b.setWidth 32 <<< 24) := by
  rw [crcTable, crcByte, BitVec.zero_xor]

theorem crcTable_xor (b c : Byte) : crcTable (b ^^^ c) = crcTable b ^^^ crcTable c := by
  rw [crcTable_eq, crcTable_eq, crcTable_eq, ← crcBits_xor, BitVec.setWidth_xor, BitVec.shiftLeft_xor_distrib]

/-- Eight bit steps: the top byte goes through the table, the others are shifted (R83). -/
theorem crcBits_eight (x : CrcWord) : crcBits 8 x = x <<< 8 ^^^ crcTable (x.extractLsb' 24 8) := by
  have hrest : ((x.setWidth 24).setWidth 32).toNat * 2 ^ 8 < 2 ^ 32 := by
    have hlt : (x.setWidth 24).toNat < 2 ^ 24 := (x.setWidth 24).isLt
    rw [BitVec.toNat_setWidth_of_le (by decide)]
    omega
  calc crcBits 8 x = crcBits 8 ((x.extractLsb' 24 8).setWidth 32 <<< 24) ^^^ crcBits 8 ((x.setWidth 24).setWidth 32) := by
        rw [← crcBits_xor, topByte_xor_rest]
    _ = crcTable (x.extractLsb' 24 8) ^^^ x <<< 8 := by rw [← crcTable_eq, crcBits_eq_shiftLeft 8 _ hrest, rest_shiftLeft]
    _ = x <<< 8 ^^^ crcTable (x.extractLsb' 24 8) := BitVec.xor_comm _ _

/-- The byte step by the table (R83). -/
theorem crcByte_eq_crcByteByTable (x : CrcWord) (b : Byte) : crcByte x b = crcByteByTable x b := by
  rw [crcByte_xor, crcBits_eight, crcByteByTable, crcTable_xor, BitVec.xor_assoc]

/-- The byte that selects the table entry, in numbers. -/
theorem topByte_xor_toNat (x : CrcWord) (b : Byte) : (x.extractLsb' 24 8 ^^^ b).toNat = (x.toNat / 2 ^ 24) ^^^ b.toNat := by
  have hx : x.toNat < 2 ^ 32 := x.isLt
  rw [BitVec.toNat_xor, BitVec.extractLsb'_toNat, Nat.shiftRight_eq_div_pow, Nat.mod_eq_of_lt (by omega)]

/-- Settles O40: the byte step by the table, its entry being the byte step from 0, in numbers. -/
theorem crcByteEqualsItsTableForm : Obligations.CrcByteEqualsItsTableForm := by
  unfold Obligations.CrcByteEqualsItsTableForm
  intro x b
  rw [crcByte_eq_crcByteByTable, crcByteByTable, BitVec.toNat_xor, BitVec.toNat_shiftLeft, Nat.shiftLeft_eq, crcTable,
    crcByte_toNat, topByte_xor_toNat]
  rfl

/-- The bytes of the window at 0x30 to 0x3F are the byte string of the checksum (20_memory.md R38, R79). -/
theorem windowBytes_packed (s : State) :
    ((List.range 16).map fun i => s.windowByte (0x30 + i)) = (le16 s.packed).map some := by
  rw [le16, List.map_map]
  exact List.map_congr_left fun i hi => windowByte_packed s (List.mem_range.mp hi)

/-- A fold over bytes that are all there is a fold over the bytes. -/
theorem foldl_map_some {α β : Type} (step : α → β → α) (x : α) (l : List β) :
    (l.map some).foldl (fun acc b => acc.bind fun r => b.map fun c => step r c) (some x) = some (l.foldl step x) := by
  rw [List.foldl_map]
  exact List.foldl_hom some fun _ _ => rfl

/-- Settles O41: the window's bytes are `LE16(PACKED)`, and the table's byte step is the byte step. -/
theorem crcRunsOverTheWindowBytes : Obligations.CrcRunsOverTheWindowBytes := by
  unfold Obligations.CrcRunsOverTheWindowBytes
  intro s
  have htable : crcByteByTable = crcByte := funext₂ fun x b => (crcByte_eq_crcByteByTable x b).symm
  refine ⟨?_, crcReg_toNat s.packed⟩
  rw [windowBytes_packed, foldl_map_some crcByteByTable, htable]
  rfl

end Sys2Proof.Machine
end

section
/-! Further proofs for 42_text_transform.md sections 4 and 6. The content of an encoded text is its body with the marker put in; its
shape, and what Decode makes of it. -/

namespace Sys2Proof.Machine

open Sys2Proof.SpecForm

/-! ## The content of an encoded text -/

/-- The 25 characters of the key of `n` before the dashes are put in (R90). -/
def keyContent (a : List Byte) (n : Nat) : List Byte := insertMarker (n / 24 ^ 24) (renderBody a (digits n))

/-- What Encode answers is the dashed content of the key (R92). -/
theorem eq_dashed_keyContent {a t : List Byte} {n : Nat} (h : encodeText a n = .ok t) :
    n ≤ 24 ^ 25 ∧ t = dashed (keyContent a n) := by
  obtain ⟨-, he⟩ | ⟨hle, hok⟩ := encodeText_cases a n
  · cases he.symm.trans h
  · exact ⟨limit_eq ▸ hle, (Except.ok.inj (hok.symm.trans h)).symm⟩

theorem keyContent_length (a : List Byte) (n : Nat) : (keyContent a n).length = 25 := by
  rw [keyContent, insertMarker_length, renderBody_length]

section
variable {a : List Byte} (ha : Alphabet.wf a = true)
include ha

/-- Only symbols are rendered (R104). -/
theorem renderBody_subset_of_wf (n : Nat) : ∀ c ∈ renderBody a (digits n), c ∈ a :=
  renderBody_subset (Alphabet.wf_iff.mp ha).1 n

theorem marker_notMem_renderBody (n : Nat) : Config.marker ∉ renderBody a (digits n) := by
  obtain ⟨-, -, hmarker, -⟩ := Alphabet.wf_iff.mp ha
  exact fun h => hmarker (renderBody_subset_of_wf ha n _ h)

/-- A content character is a symbol or the marker. -/
theorem mem_keyContent {n : Nat} {c : Byte} (h : c ∈ keyContent a n) : c ∈ a ∨ c = Config.marker :=
  (mem_insertMarker h).imp_left (renderBody_subset_of_wf ha n c)

theorem dash_notMem_keyContent (n : Nat) : Config.dash ∉ keyContent a n := by
  obtain ⟨-, -, -, hdash⟩ := Alphabet.wf_iff.mp ha
  intro h
  rcases mem_keyContent ha h with h | h
  · exact hdash h
  · exact absurd h (by decide)

theorem count_marker_keyContent (n : Nat) : (keyContent a n).count Config.marker = 1 :=
  count_marker_insertMarker (marker_notMem_renderBody ha n)

theorem stripDashes_key (n : Nat) : stripDashes (dashed (keyContent a n)) = keyContent a n :=
  stripDashes_dashed (keyContent_length a n) (dash_notMem_keyContent ha n)

end

/-! ## The shape of an encoded text -/

theorem count_stripDashes {c : Byte} (h : c ≠ Config.dash) (t : List Byte) : (stripDashes t).count c = t.count c :=
  List.count_filter (decide_eq_true h)

/-- The characters of a text that are no dashes and those that are. -/
theorem stripDashes_length_add_count (t : List Byte) : (stripDashes t).length + t.count Config.dash = t.length := by
  induction t with
  | nil => rfl
  | cons c t ih =>
    by_cases hc : c = Config.dash
    · subst hc
      rw [List.count_cons_self, List.length_cons, ← ih, stripDashes, List.filter_cons_of_neg (by simp), ← stripDashes]
      omega
    · rw [List.count_cons_of_ne hc, List.length_cons, ← ih, stripDashes, List.filter_cons_of_pos (by simpa using hc),
        List.length_cons, ← stripDashes]
      omega

theorem keyChar_of_dash_place (a : List Byte) (n : Nat) {k : Nat} (h : k ∈ [5, 11, 17, 23]) :
    keyChar a n k = Config.dash := by
  have hplace : k = 5 ∨ k = 11 ∨ k = 17 ∨ k = 23 := by simpa using h
  rw [keyChar, if_pos hplace]
  rfl

/-- The marker stands at the content position of the top digit (R90). -/
theorem keyChar_of_marker_place (a : List Byte) {n k : Nat} (hdash : k % 6 ≠ 5) (h : k - k / 6 = n / 24 ^ 24) :
    keyChar a n k = Config.marker := by
  rw [keyChar, if_neg (by omega), if_pos h]
  rfl

theorem encodeText_getElem? {a t : List Byte} {n k : Nat} (h : encodeText a n = .ok t) (hk : k < 29) :
    t[k]? = some (keyChar a n k) := by
  obtain ⟨hle, -⟩ := eq_dashed_keyContent h
  obtain ⟨u, hu, -, hchars⟩ := encodeText_of_le a hle
  obtain rfl := Except.ok.inj (hu.symm.trans h)
  exact hchars k hk

/-- Settles O44: counts and members are those of the content, which is the text without its dashes; the places are those of
`keyChar`. -/
theorem encodedTextHasTheKeyShape : Obligations.EncodedTextHasTheKeyShape := by
  unfold Obligations.EncodedTextHasTheKeyShape
  intro a t n ha h
  obtain ⟨-, ht⟩ := eq_dashed_keyContent h
  have hstrip : stripDashes t = keyContent a n := by rw [ht, stripDashes_key ha]
  have hlength : t.length = 29 := by rw [ht, dashed_length (keyContent_length a n)]
  refine ⟨hlength, ?_, ?_, fun c hc => ?_, fun k hk => ?_, fun htop => ?_, fun htop => ?_⟩
  · rw [← count_stripDashes (by decide), hstrip, count_marker_keyContent ha]
  · have hcount := stripDashes_length_add_count t
    rw [hstrip, keyContent_length, hlength] at hcount
    omega
  · by_cases hdash : c = Config.dash
    · exact .inr (.inr hdash)
    · have hmem : c ∈ stripDashes t := List.mem_filter.mpr ⟨hc, decide_eq_true hdash⟩
      rw [hstrip] at hmem
      exact (mem_keyContent ha hmem).imp_right .inl
  · have hplace : k = 5 ∨ k = 11 ∨ k = 17 ∨ k = 23 := by simpa using hk
    rw [encodeText_getElem? h (by omega), keyChar_of_dash_place a n hk]
  · rw [encodeText_getElem? h (by decide), keyChar_of_marker_place a (by decide) htop.symm]
  · rw [encodeText_getElem? h (by decide), keyChar_of_marker_place a (by decide) htop.symm]

/-! ## Decode of an encoded text -/

/-- The indices of the rendered body are the digits, most significant first (R89). -/
theorem mapIndices_renderBody {a : List Byte} (ha : Alphabet.wf a = true) (n : Nat) :
    mapIndices a (renderBody a (digits n)) = .ok ((digits n).take 24).reverse := by
  obtain ⟨hlen, hnodup, -, -⟩ := Alphabet.wf_iff.mp ha
  refine mapIndices_map_symbolAt hnodup _ fun v hv => ?_
  rw [hlen]
  exact digits_take_lt n v (List.mem_reverse.mp hv)

/-- Decode of the key of `n` is `n`: the marker's position is the top digit, the characters are the others (R103). -/
theorem decodeText_key {a : List Byte} (ha : Alphabet.wf a = true) {n : Nat} (hn : n ≤ 24 ^ 25) :
    decodeText a (dashed (keyContent a n)) = .ok n := by
  have hp : n / 24 ^ 24 ≤ (renderBody a (digits n)).length := by
    rw [renderBody_length]
    exact topQuotient_le hn
  have hpos : markerPos (keyContent a n) = n / 24 ^ 24 := markerPos_insertMarker hp (marker_notMem_renderBody ha n)
  have hbody : removeAt (n / 24 ^ 24) (keyContent a n) = renderBody a (digits n) := removeAt_insertMarker hp
  rw [decodeText, stripDashes_key ha, decodeContent_of_wellShaped a (keyContent_length a n) (count_marker_keyContent ha n),
    hpos, hbody, mapIndices_renderBody ha]
  exact congrArg Except.ok (horner_expandDigits 24 n)

theorem decodeText_of_encodeText {a t : List Byte} (ha : Alphabet.wf a = true) {n : Nat} (h : encodeText a n = .ok t) :
    decodeText a t = .ok n := by
  obtain ⟨hle, rfl⟩ := eq_dashed_keyContent h
  exact decodeText_key ha hle

/-- Settles O46: up to `LIMIT` Encode answers the key of `n`, of which Decode gives `n`. -/
theorem decodeTextInvertsEncodeText : Obligations.DecodeTextInvertsEncodeText := by
  unfold Obligations.DecodeTextInvertsEncodeText
  intro a n ha hn
  obtain ⟨t, ht, -, -⟩ := encodeText_of_le a hn
  exact ⟨t, ht, decodeText_of_encodeText ha ht⟩

/-! ## The range of Decode -/

/-- The largest value: the marker last and every index 23 (R100). -/
theorem decodeText_last_symbols {a : List Byte} (ha : Alphabet.wf a = true) :
    decodeText a (List.replicate 24 (a.getD 23 0#8) ++ [Config.marker]) = .ok (25 * 24 ^ 24 - 1) := by
  obtain ⟨hlen, hnodup, hmarker, hdash⟩ := Alphabet.wf_iff.mp ha
  have hmem : symbolAt a 23 ∈ a := symbolAt_mem (by omega)
  have hne_marker : symbolAt a 23 ≠ Config.marker := fun h => hmarker (h ▸ hmem)
  have hne_dash : symbolAt a 23 ≠ Config.dash := fun h => hdash (h ▸ hmem)
  have hbody : Config.marker ∉ List.replicate 24 (symbolAt a 23) := fun h => hne_marker (List.eq_of_mem_replicate h).symm
  have htext : List.replicate 24 (a.getD 23 0#8) ++ [Config.marker] = insertMarker 24 (List.replicate 24 (symbolAt a 23)) :=
    rfl
  have hstrip : stripDashes (insertMarker 24 (List.replicate 24 (symbolAt a 23))) =
      insertMarker 24 (List.replicate 24 (symbolAt a 23)) := by
    refine stripDashes_of_notMem fun h => ?_
    rcases mem_insertMarker h with h | h
    · exact hne_dash (List.eq_of_mem_replicate h).symm
    · exact absurd h (by decide)
  have hindices : mapIndices a (List.replicate 24 (symbolAt a 23)) = .ok (List.replicate 24 23) := by
    rw [← List.map_replicate]
    exact mapIndices_map_symbolAt hnodup _ fun v hv => by rw [List.eq_of_mem_replicate hv]; omega
  rw [htext, decodeText, hstrip, decodeContent_of_wellShaped a rfl (count_marker_insertMarker hbody),
    markerPos_insertMarker List.length_replicate.ge hbody, removeAt_insertMarker List.length_replicate.ge, hindices]
  decide

/-- Settles O47: Horner from a position below 25 over 24 indices below 24. -/
theorem decodeTextRange : Obligations.DecodeTextRange := by
  unfold Obligations.DecodeTextRange
  intro a ha
  refine ⟨fun t n h => ?_, decodeText_last_symbols ha⟩
  obtain he | ⟨c, -, -, -, -, he⟩ | ⟨p, vs, hp, hlen, hvs, hok⟩ := decodeText_cases a t
  · cases he.symm.trans h
  · cases he.symm.trans h
  · obtain rfl := Except.ok.inj (hok.symm.trans h)
    rw [(Alphabet.wf_iff.mp ha).1] at hvs
    have hlt := horner_lt p vs hvs
    rw [hlen] at hlt
    omega

end Sys2Proof.Machine
end

section
/-! Further proofs for 43_key_commands.md and 41_checksum_unit.md section 3. ENCKEY as PACK and TENC, DECKEY as its inverse, and the
host's verification of a key. -/

namespace Sys2Proof.Machine

open Sys2Proof.SpecForm

/-! ## ENCKEY -/

/-- ENCKEY's five writes as one update of the state (R105). -/
theorem State.setPackResult_setKeyText_setStatus (s : State) (r : Nat × Nat) (k : List Byte) (v : Word) :
    ((s.setPackResult r).setKeyText k).setStatus v =
      { s with
        packed := BitVec.ofNat 128 r.1, csused := BitVec.ofNat 64 r.2, text := padText k, textlen := 29#64, status := v } := by
  rw [State.setKeyText_setStatus]
  rfl

/-- Settles O52: ENCKEY stores what Pack answers and the key of it, which is known character by character. -/
theorem enckeyStoresThePackedKey : Obligations.EnckeyStoresThePackedKey := by
  unfold Obligations.EnckeyStoresThePackedKey
  intro s hin henc
  have hpack := packFields_fieldSet_ok hin henc
  obtain ⟨k, hk, hexec⟩ := exec_enckey_of_packFields_ok hpack
  have hle : packedSum s ≤ 24 ^ 25 := limit_eq ▸ packFields_le_limit hpack
  obtain ⟨t, ht, hlen, hchars⟩ := encodeText_of_le Config.alphabet hle
  obtain rfl := Except.ok.inj (ht.symm.trans hk)
  refine ⟨padText t, ?_, padText_key_getElem hlen hchars⟩
  rw [hexec, State.setPackResult_setKeyText_setStatus, statusOk]

/-- An integer up to `LIMIT` fits `PACKED` (R105). -/
theorem toNat_ofNat_of_le_limit {n : Nat} (h : n ≤ Config.limit) : (BitVec.ofNat 128 n).toNat = n := by
  rw [limit_eq] at h
  rw [BitVec.toNat_ofNat, Nat.mod_eq_of_lt (h.trans_lt (by decide))]

/-- Settles O53: both commands follow Pack; TENC then reads back the integer that Pack answers, and encodes it as ENCKEY
does. -/
theorem enckeyIsPackThenTenc : Obligations.EnckeyIsPackThenTenc := by
  unfold Obligations.EnckeyIsPackThenTenc
  intro s t h
  obtain ⟨e, he, rfl⟩ | ⟨r, hr, rfl⟩ := execPack_cases h
  · exact ⟨fun _ => exec_of_packFields_error (.inr rfl) he, fun hok => absurd hok (statusWord_ne_zero e)⟩
  · refine ⟨fun hne => absurd rfl hne, fun _ => ?_⟩
    obtain ⟨k, hk, hexec⟩ := exec_enckey_of_packFields_ok hr
    have hread : ((s.setPackResult r).setStatus statusOk).packed.toNat = r.1 :=
      toNat_ofNat_of_le_limit (packFields_le_limit hr)
    refine ⟨_, exec_tenc_of_encodeText_ok (by rw [hread, hk]), rfl, ?_⟩
    rw [hexec, State.setPackResult_setKeyText_setStatus]
    rfl

/-! ## DECKEY -/

/-- DECKEY's eight writes as one update of the state, the fields as quotients and remainders (R106, 40_field_packer.md
R70). -/
theorem exec_deckey_withFieldsOf {s : State} {n : Nat} (h : s.inputKey Config.alphabet = .ok n) :
    exec .deckey s = .next { withFieldsOf n s with packed := BitVec.ofNat 128 n, status := 0#64 } := by
  rw [exec_deckey_of_inputKey_ok h, unpackFields_eq]
  rfl

/-- Settles O54: Decode answers the text's value, and DECKEY stores it and its fields. -/
theorem deckeyStoresTheTextFields : Obligations.DeckeyStoresTheTextFields := by
  unfold Obligations.DeckeyStoresTheTextFields
  intro s hlen hshape hknown
  apply exec_deckey_withFieldsOf
  rw [inputKey_of_textlen_le _ hlen, decodeText_eq_textValue _ hshape hknown]

/-- The key is read back from the buffer it is laid into (42_text_transform.md R93, R102). -/
theorem padText_toList_take {k : List Byte} (h : k.length ≤ 32) : (padText k).toList.take k.length = k := by
  refine List.ext_getElem (by simp [h]) fun i _ hi => ?_
  have hget := padText_get k ⟨i, by omega⟩
  rw [List.getElem_take, Vector.getElem_toList]
  simpa [hi] using hget

/-- What a successful ENCKEY has found and left (R105). -/
theorem exec_enckey_ok {s t : State} (h : exec .enckey s = .next t) (hok : t.status = 0#64) :
    FieldsInBounds s ∧ ∃ k, encodeText Config.alphabet (packedSum s) = .ok k ∧
      t = { s with
        packed := BitVec.ofNat 128 (packedSum s), csused := BitVec.ofNat 64 (usedChecksum s), text := padText k,
        textlen := 29#64, status := 0#64 } := by
  obtain ⟨e, -, rfl⟩ | ⟨r, k, hr, hk, rfl⟩ := execEnckey_cases h
  · exact absurd hok (statusWord_ne_zero e)
  · obtain ⟨hin, rfl⟩ := eq_of_packFields_fieldSet_ok hr
    rw [State.setPackResult_setKeyText_setStatus, statusOk]
    exact ⟨hin, k, hk, rfl⟩

/-- A key in `TEXT` stands for the integer it encodes (42_text_transform.md R103). -/
theorem inputKey_of_key {t : State} {k : List Byte} {n : Nat} (hk : encodeText Config.alphabet n = .ok k)
    (htext : t.text = padText k) (hlen : t.textlen = 29#64) : t.inputKey Config.alphabet = .ok n := by
  have halphabet : Alphabet.wf Config.alphabet = true := by decide
  have hkey : k.length = 29 := by
    obtain ⟨-, rfl⟩ := eq_dashed_keyContent hk
    exact dashed_length (keyContent_length _ n)
  have htextlen : t.textlen.toNat = k.length := by rw [hlen, hkey]; rfl
  rw [inputKey_of_textlen_le _ (by omega), inputOf, htext, htextlen, padText_toList_take (by omega),
    decodeText_of_encodeText halphabet hk]

/-- Settles O56: TDEC stores the integer that `PACKED` holds; UNPACK, which DECKEY then is, changes the checksum alone. -/
theorem deckeyInvertsEnckey : Obligations.DeckeyInvertsEnckey := by
  unfold Obligations.DeckeyInvertsEnckey
  intro s t h hok
  obtain ⟨hin, k, hk, ht⟩ := exec_enckey_ok h hok
  have hpacked : t.packed = BitVec.ofNat 128 (packedSum s) := by rw [ht]
  have hcsused : t.csused = BitVec.ofNat 64 (usedChecksum s) := by rw [ht]
  have hfields : t.fieldSet = s.fieldSet := by simp only [ht, State.fieldSet]
  have htdec : exec .tdec t = .next t := by
    have hstore := exec_tdec_of_inputKey_ok (inputKey_of_key (t := t) hk (by rw [ht]) (by rw [ht]))
    rwa [← hpacked, ← hok] at hstore
  refine ⟨htdec, ?_⟩
  obtain ⟨-, hunpack⟩ := deckeyIsTdecThenUnpack t t htdec
  have hfieldsOf := exec_unpack_of_packedSum hin hfields (by rw [hpacked, packed_ofNat_packedSum hin])
  rw [← hcsused, ← hok] at hfieldsOf
  exact (hunpack hok).trans hfieldsOf

/-! ## The host's verification of a key -/

/-- The mask of R85 clears the ten checksum bits of `PACKED_HI` and no other. -/
theorem and_not_checksumMaskHi_toNat (x : Word) :
    (x &&& ~~~checksumMaskHi).toNat = x.toNat - x.toNat / 2 ^ 39 % 2 ^ 10 * 2 ^ 39 := by
  have hmask : (x &&& checksumMaskHi).toNat = x.toNat / 2 ^ 39 % 2 ^ 10 * 2 ^ 39 := by
    rw [BitVec.toNat_and, ← and_mask_eq]
    rfl
  have hdisjoint : (x &&& ~~~checksumMaskHi) &&& (x &&& checksumMaskHi) = 0#64 := by
    ext i hi
    simp only [BitVec.getElem_and, BitVec.getElem_not, BitVec.getElem_zero]
    cases x[i] <;> cases checksumMaskHi[i] <;> rfl
  have hunion : (x &&& ~~~checksumMaskHi) + (x &&& checksumMaskHi) = x := by
    rw [BitVec.add_eq_or_of_and_eq_zero _ _ hdisjoint]
    ext i hi
    simp only [BitVec.getElem_or, BitVec.getElem_and, BitVec.getElem_not]
    cases x[i] <;> cases checksumMaskHi[i] <;> rfl
  have hsum := BitVec.toNat_add_of_and_eq_zero hdisjoint
  rw [hunion, hmask] at hsum
  omega

/-- Writing `PACKED_HI` back under the mask takes bits 112:103 out of the packed integer (R85). -/
theorem storeReg_packedHi_cleared_toNat (s : State) :
    (s.storeReg .packedHi (s.packedHi &&& ~~~checksumMaskHi)).packed.toNat =
      s.packed.toNat - s.packed.toNat / 2 ^ 103 % 2 ^ 10 * 2 ^ 103 := by
  have hn : s.packed.toNat < 2 ^ 128 := s.packed.isLt
  rw [State.storeReg_packedHi, State.setPacked_packed, and_not_checksumMaskHi_toNat, State.packedHi_toNat,
    BitVec.toNat_ofNat]
  omega

/-- What the CRC command does to the state (R82). -/
def crcUpdate (s : State) : State := (s.setCrcout ((crc10 s.packed).setWidth 64)).setStatus statusOk

theorem serve_crc (s : State) : serve (writeWord 0x58 3#64) s = .next (crcUpdate s) :=
  (memWrite_reg .cmd 3#64 s).trans (issueCommand_of_decode_ok (decode_encode .crc) s)

theorem crcUpdate_crcout (s : State) : (crcUpdate s).crcout = BitVec.ofNat 64 (crc10Num s.packed.toNat) :=
  crc10_setWidth_eq_ofNat s.packed

/-- The verification procedure's two writes (R85). -/
theorem run_verification (rest : List HostEvent) (u : State) : ∃ v,
    core.run 2 (facing (writeWord 0x38 (u.packedHi &&& ~~~checksumMaskHi)) (writeWord 0x58 3#64 :: rest) u) = .next v ∧
    v.crcout = BitVec.ofNat 64 (crc10Num (u.packed.toNat - u.packed.toNat / 2 ^ 103 % 2 ^ 10 * 2 ^ 103)) := by
  refine ⟨_, run_two_updates (U := State.storeReg .packedHi (u.packedHi &&& ~~~checksumMaskHi)) (U' := crcUpdate)
    (serve_writeWord (r := .packedHi) rfl _) serve_crc (fun s es => s.storeReg_setPending .packedHi _ es) rest u, ?_⟩
  rw [crcUpdate_crcout]
  exact congrArg (fun n => BitVec.ofNat 64 (crc10Num n)) (storeReg_packedHi_cleared_toNat (u.setPending rest))

/-- Settles O57: with the checksum bits cleared the packed sum is the partial sum, whose CRC the sentinel has asked for. -/
theorem autoChecksumKeysVerify : Obligations.AutoChecksumKeysVerify := by
  unfold Obligations.AutoChecksumKeysVerify
  intro s t u rest hauto h hok hdeckey
  obtain ⟨-, hinverse⟩ := deckeyInvertsEnckey s t h hok
  have hu : { t with checksum := t.csused } = u := Host.Outcome.next.inj (hinverse.symm.trans hdeckey)
  obtain ⟨hin, k, -, ht⟩ := exec_enckey_ok h hok
  have hused : usedChecksum s = crc10Num (partialSum s) := by
    rw [usedChecksum, if_pos (by rw [hauto]; rfl)]
  have hchecksum : u.checksum = BitVec.ofNat 64 (usedChecksum s) := by rw [← hu, ht]
  have hpacked : u.packed.toNat = packedSum s := by rw [← hu, ht, packed_ofNat_packedSum hin]
  have hcleared : u.packed.toNat - u.packed.toNat / 2 ^ 103 % 2 ^ 10 * 2 ^ 103 = partialSum s := by
    have hck := packedSum_div_mod hin .checksum
    simp only [Field.bitOffset, Field.width, if_true] at hck
    rw [hpacked, hck, packedSum, Nat.add_sub_cancel]
  obtain ⟨v, hrun, hcrcout⟩ := run_verification rest u
  rw [hcleared, ← hused] at hcrcout
  refine ⟨v, hrun, hcrcout.trans hchecksum.symm, ?_⟩
  rw [hcleared, hchecksum, usedChecksum_ofNat hin, hused]

end Sys2Proof.Machine
end
